-- ==== Sys2Proof/Word.lean ====
section
/-!
DEFINITION. The word types of the machine (spec 00_scope.md R5, R8; 30_encoding.md R92). Every value of the machine
is unsigned (R8): nothing here is sign-extended.
-/

namespace Sys2Proof

/-- A register, timer or memory byte (`REG_W`, `TIMER_W`: R5). -/
abbrev Byte := BitVec 8

/-- `pc`, `index`, a call-stack slot, the keypad mask or an instruction word (`PC_W`, `IDX_W`: R5). -/
abbrev Word := BitVec 16

/-- The fields `x`, `y`, `n` of an instruction word, and a key number (R92, 10_state.md R30). -/
abbrev Nibble := BitVec 4

/-- The field `nnn` of an instruction word (R92). -/
abbrev Addr12 := BitVec 12

/-- A pixel word (`PIXEL_W`: R5, 10_state.md R28). -/
abbrev Pixel := BitVec 32

/-- `zext_16` of R9. -/
abbrev zext16 {n : Nat} (v : BitVec n) : Word := v.setWidth 16

/-- `zext_8` of R9. -/
abbrev zext8 {n : Nat} (v : BitVec n) : Byte := v.setWidth 8

end Sys2Proof
end

