-- ==== Sys2Proof/Syntax.lean ====
section
/-!
DEFINITION. The instructions: one constructor per row of spec/opcode_table.json (30_encoding.md R96; the six fallback
rows: R97, 45_noop.md). Constructors carry the operand fields of R92, and also the bits a row ignores (`ign`, `bits`),
so that an instruction determines its word (R93: the descriptor holds the whole word).
-/

namespace Sys2Proof

/-- The opcode map of R96, then the no-op rows of R181 to R186. -/
inductive Instr where
  /-- `00E0` CLS; bits 11:8 are ignored (R98). -/
  | cls (ign : Nibble)
  /-- `00EE` RET; bits 11:8 are ignored (R98). -/
  | ret (ign : Nibble)
  /-- `1nnn` JP nnn. -/
  | jp (nnn : Addr12)
  /-- `2nnn` CALL nnn. -/
  | call (nnn : Addr12)
  /-- `3xkk` SE Vx, kk. -/
  | seImm (x : Nibble) (kk : Byte)
  /-- `4xkk` SNE Vx, kk. -/
  | sneImm (x : Nibble) (kk : Byte)
  /-- `5xy0` SE Vx, Vy. -/
  | seReg (x y : Nibble)
  /-- `6xkk` LD Vx, kk. -/
  | ldImm (x : Nibble) (kk : Byte)
  /-- `7xkk` ADD Vx, kk. -/
  | addImm (x : Nibble) (kk : Byte)
  /-- `8xy0` LD Vx, Vy. -/
  | ldReg (x y : Nibble)
  /-- `8xy1` OR Vx, Vy. -/
  | orReg (x y : Nibble)
  /-- `8xy2` AND Vx, Vy. -/
  | andReg (x y : Nibble)
  /-- `8xy3` XOR Vx, Vy. -/
  | xorReg (x y : Nibble)
  /-- `8xy4` ADD Vx, Vy. -/
  | addReg (x y : Nibble)
  /-- `8xy5` SUB Vx, Vy. -/
  | subReg (x y : Nibble)
  /-- `8xy6` SHR Vx, Vy. -/
  | shrReg (x y : Nibble)
  /-- `8xy7` SUBN Vx, Vy. -/
  | subnReg (x y : Nibble)
  /-- `8xyE` SHL Vx, Vy. -/
  | shlReg (x y : Nibble)
  /-- `9xy0` SNE Vx, Vy. -/
  | sneReg (x y : Nibble)
  /-- `Annn` LD I, nnn. -/
  | ldI (nnn : Addr12)
  /-- `Bnnn` JP V0, nnn. -/
  | jpV0 (nnn : Addr12)
  /-- `Cxkk` RND Vx, kk. -/
  | rnd (x : Nibble) (kk : Byte)
  /-- `Dxyn` DRW Vx, Vy, n. -/
  | drw (x y n : Nibble)
  /-- `Ex9E` SKP Vx. -/
  | skp (x : Nibble)
  /-- `ExA1` SKNP Vx. -/
  | sknp (x : Nibble)
  /-- `Fx07` LD Vx, DT. -/
  | ldVxDt (x : Nibble)
  /-- `Fx0A` LD Vx, K. -/
  | ldVxK (x : Nibble)
  /-- `Fx15` LD DT, Vx. -/
  | ldDtVx (x : Nibble)
  /-- `Fx18` LD ST, Vx. -/
  | ldStVx (x : Nibble)
  /-- `Fx1E` ADD I, Vx. -/
  | addI (x : Nibble)
  /-- `Fx29` LD F, Vx. -/
  | ldF (x : Nibble)
  /-- `Fx33` LD B, Vx. -/
  | ldB (x : Nibble)
  /-- `Fx55` LD [I], Vx. -/
  | storeRegs (x : Nibble)
  /-- `Fx65` LD Vx, [I]. -/
  | loadRegs (x : Nibble)
  /-- NOP0: class `0x0`, `kk` not `0xE0` or `0xEE` (R181). -/
  | nop0 (bits : Addr12)
  /-- NOP5: class `0x5`, `n` not 0 (R182). -/
  | nop5 (bits : Addr12)
  /-- NOP8: class `0x8`, `n` in 8, 9, A, B, C, D, F (R183). -/
  | nop8 (bits : Addr12)
  /-- NOP9: class `0x9`, `n` not 0 (R184). -/
  | nop9 (bits : Addr12)
  /-- NOPE: class `0xE`, `kk` not `0x9E` or `0xA1` (R185). -/
  | nopE (bits : Addr12)
  /-- NOPF: class `0xF`, `kk` none of the nine defined values (R186). -/
  | nopF (bits : Addr12)
  deriving DecidableEq, Repr

end Sys2Proof
end

