-- ==== Sys2Proof/WellFormed.lean ====
section
/-!
DEFINITION. Which instructions exist: a defined pattern admits every operand value (spec 30_encoding.md R94, R96); a
no-op row holds exactly the words of its class that select no defined pattern (R97, 45_noop.md R181 to R186).
-/

namespace Sys2Proof

/-- Bits 7:0 of a no-op row's free bits: the discriminant of classes 0, E and F (R92). -/
def lowKk (bits : Addr12) : Byte := bits.extractLsb' 0 8

/-- Bits 3:0 of a no-op row's free bits: the discriminant of classes 5, 8 and 9 (R92). -/
def lowN (bits : Addr12) : Nibble := bits.extractLsb' 0 4

/-- The values of `kk` that select a defined pattern of class 0 (R95). -/
def definedKk0 : List Byte := [0xE0, 0xEE]

/-- The values of `n` that select a defined pattern of class 5 or 9 (R95). -/
def definedN59 : List Nibble := [0x0]

/-- The values of `n` that select a defined pattern of class 8 (R95). -/
def definedN8 : List Nibble := [0x0, 0x1, 0x2, 0x3, 0x4, 0x5, 0x6, 0x7, 0xE]

/-- The values of `kk` that select a defined pattern of class E (R95). -/
def definedKkE : List Byte := [0x9E, 0xA1]

/-- The values of `kk` that select a defined pattern of class F (R95). -/
def definedKkF : List Byte := [0x07, 0x0A, 0x15, 0x18, 0x1E, 0x29, 0x33, 0x55, 0x65]

/-- R94, R97: an instruction the opcode map has. -/
def Instr.wellFormed : Instr → Bool
  | .cls _ | .ret _ => true
  | .jp _ | .call _ | .ldI _ | .jpV0 _ => true
  | .seImm _ _ | .sneImm _ _ | .ldImm _ _ | .addImm _ _ | .rnd _ _ => true
  | .seReg _ _ | .sneReg _ _ | .ldReg _ _ | .orReg _ _ | .andReg _ _ | .xorReg _ _ => true
  | .addReg _ _ | .subReg _ _ | .shrReg _ _ | .subnReg _ _ | .shlReg _ _ => true
  | .drw _ _ _ => true
  | .skp _ | .sknp _ | .ldVxDt _ | .ldVxK _ | .ldDtVx _ | .ldStVx _ => true
  | .addI _ | .ldF _ | .ldB _ | .storeRegs _ | .loadRegs _ => true
  | .nop0 bits => !definedKk0.contains (lowKk bits)
  | .nop5 bits => !definedN59.contains (lowN bits)
  | .nop8 bits => !definedN8.contains (lowN bits)
  | .nop9 bits => !definedN59.contains (lowN bits)
  | .nopE bits => !definedKkE.contains (lowKk bits)
  | .nopF bits => !definedKkF.contains (lowKk bits)

end Sys2Proof
end

