-- ==== Sys2Proof/Decode.lean ====
section
/-!
DEFINITION. The decoder and the encoder (spec 30_encoding.md R91 to R98). `decode` is "a pure, total function over any
16-bit word" (R93); `decodeBytes` reads it from bytes in the hardware's big-endian order (20_memory.md R63, R64).
-/

namespace Sys2Proof

/-- Bits 15:12 (R92). -/
def opClass (w : Word) : Nibble := w.extractLsb' 12 4

/-- Bits 11:8 (R92). -/
def fieldX (w : Word) : Nibble := w.extractLsb' 8 4

/-- Bits 7:4 (R92). -/
def fieldY (w : Word) : Nibble := w.extractLsb' 4 4

/-- Bits 3:0 (R92). -/
def fieldN (w : Word) : Nibble := w.extractLsb' 0 4

/-- Bits 7:0 (R92). -/
def fieldKk (w : Word) : Byte := w.extractLsb' 0 8

/-- Bits 11:0 (R92). -/
def fieldNnn (w : Word) : Addr12 := w.extractLsb' 0 12

/-- Class 0: discriminant `kk` alone, bits 11:8 ignored (R95, D15, log 19). -/
def decodeClass0 (w : Word) : Instr :=
  if fieldKk w = 0xE0 then .cls (fieldX w)
  else if fieldKk w = 0xEE then .ret (fieldX w)
  else .nop0 (fieldNnn w)

/-- Class 8: discriminant `n` (R95). -/
def decodeClass8 (w : Word) : Instr :=
  if fieldN w = 0x0 then .ldReg (fieldX w) (fieldY w)
  else if fieldN w = 0x1 then .orReg (fieldX w) (fieldY w)
  else if fieldN w = 0x2 then .andReg (fieldX w) (fieldY w)
  else if fieldN w = 0x3 then .xorReg (fieldX w) (fieldY w)
  else if fieldN w = 0x4 then .addReg (fieldX w) (fieldY w)
  else if fieldN w = 0x5 then .subReg (fieldX w) (fieldY w)
  else if fieldN w = 0x6 then .shrReg (fieldX w) (fieldY w)
  else if fieldN w = 0x7 then .subnReg (fieldX w) (fieldY w)
  else if fieldN w = 0xE then .shlReg (fieldX w) (fieldY w)
  else .nop8 (fieldNnn w)

/-- Class E: discriminant `kk` (R95). -/
def decodeClassE (w : Word) : Instr :=
  if fieldKk w = 0x9E then .skp (fieldX w)
  else if fieldKk w = 0xA1 then .sknp (fieldX w)
  else .nopE (fieldNnn w)

/-- Class F: discriminant `kk` (R95). -/
def decodeClassF (w : Word) : Instr :=
  if fieldKk w = 0x07 then .ldVxDt (fieldX w)
  else if fieldKk w = 0x0A then .ldVxK (fieldX w)
  else if fieldKk w = 0x15 then .ldDtVx (fieldX w)
  else if fieldKk w = 0x18 then .ldStVx (fieldX w)
  else if fieldKk w = 0x1E then .addI (fieldX w)
  else if fieldKk w = 0x29 then .ldF (fieldX w)
  else if fieldKk w = 0x33 then .ldB (fieldX w)
  else if fieldKk w = 0x55 then .storeRegs (fieldX w)
  else if fieldKk w = 0x65 then .loadRegs (fieldX w)
  else .nopF (fieldNnn w)

/-- The dispatch of R95, by primary opcode class and then by discriminant. It is total: no word is illegal (R97). -/
def decode (w : Word) : Instr :=
  if opClass w = 0x0 then decodeClass0 w
  else if opClass w = 0x1 then .jp (fieldNnn w)
  else if opClass w = 0x2 then .call (fieldNnn w)
  else if opClass w = 0x3 then .seImm (fieldX w) (fieldKk w)
  else if opClass w = 0x4 then .sneImm (fieldX w) (fieldKk w)
  else if opClass w = 0x5 then
    if fieldN w = 0x0 then .seReg (fieldX w) (fieldY w) else .nop5 (fieldNnn w)
  else if opClass w = 0x6 then .ldImm (fieldX w) (fieldKk w)
  else if opClass w = 0x7 then .addImm (fieldX w) (fieldKk w)
  else if opClass w = 0x8 then decodeClass8 w
  else if opClass w = 0x9 then
    if fieldN w = 0x0 then .sneReg (fieldX w) (fieldY w) else .nop9 (fieldNnn w)
  else if opClass w = 0xA then .ldI (fieldNnn w)
  else if opClass w = 0xB then .jpV0 (fieldNnn w)
  else if opClass w = 0xC then .rnd (fieldX w) (fieldKk w)
  else if opClass w = 0xD then .drw (fieldX w) (fieldY w) (fieldN w)
  else if opClass w = 0xE then decodeClassE w
  else decodeClassF w

/-- Why bytes hold no instruction. Only a lack of bytes can say so: every 16-bit word decodes (R97). -/
inductive DecodeError where
  /-- Fewer than the two bytes every instruction has (R91). -/
  | truncated
  deriving DecidableEq, Repr

/-- The instruction at the head of a list of bytes, the byte at the lower address first and being bits 15:8 (R63), with
the bytes after it. -/
def decodeBytes : List Byte → Except DecodeError (Instr × List Byte)
  | hi :: lo :: rest => .ok (decode (hi ++ lo), rest)
  | [_] => .error .truncated
  | [] => .error .truncated

/-- Format NNN (R92). -/
def wordNNN (c : Nibble) (nnn : Addr12) : Word := c ++ nnn

/-- Formats XKK, X and OP (R92). -/
def wordXKK (c x : Nibble) (kk : Byte) : Word := c ++ x ++ kk

/-- Formats XY and XYN (R92). -/
def wordXYN (c x y n : Nibble) : Word := c ++ x ++ y ++ n

/-- The word of an instruction, from the opcode map of R96 and the formats of R92. -/
def encode : Instr → Word
  | .cls ign => wordXKK 0x0 ign 0xE0
  | .ret ign => wordXKK 0x0 ign 0xEE
  | .jp nnn => wordNNN 0x1 nnn
  | .call nnn => wordNNN 0x2 nnn
  | .seImm x kk => wordXKK 0x3 x kk
  | .sneImm x kk => wordXKK 0x4 x kk
  | .seReg x y => wordXYN 0x5 x y 0x0
  | .ldImm x kk => wordXKK 0x6 x kk
  | .addImm x kk => wordXKK 0x7 x kk
  | .ldReg x y => wordXYN 0x8 x y 0x0
  | .orReg x y => wordXYN 0x8 x y 0x1
  | .andReg x y => wordXYN 0x8 x y 0x2
  | .xorReg x y => wordXYN 0x8 x y 0x3
  | .addReg x y => wordXYN 0x8 x y 0x4
  | .subReg x y => wordXYN 0x8 x y 0x5
  | .shrReg x y => wordXYN 0x8 x y 0x6
  | .subnReg x y => wordXYN 0x8 x y 0x7
  | .shlReg x y => wordXYN 0x8 x y 0xE
  | .sneReg x y => wordXYN 0x9 x y 0x0
  | .ldI nnn => wordNNN 0xA nnn
  | .jpV0 nnn => wordNNN 0xB nnn
  | .rnd x kk => wordXKK 0xC x kk
  | .drw x y n => wordXYN 0xD x y n
  | .skp x => wordXKK 0xE x 0x9E
  | .sknp x => wordXKK 0xE x 0xA1
  | .ldVxDt x => wordXKK 0xF x 0x07
  | .ldVxK x => wordXKK 0xF x 0x0A
  | .ldDtVx x => wordXKK 0xF x 0x15
  | .ldStVx x => wordXKK 0xF x 0x18
  | .addI x => wordXKK 0xF x 0x1E
  | .ldF x => wordXKK 0xF x 0x29
  | .ldB x => wordXKK 0xF x 0x33
  | .storeRegs x => wordXKK 0xF x 0x55
  | .loadRegs x => wordXKK 0xF x 0x65
  | .nop0 bits => wordNNN 0x0 bits
  | .nop5 bits => wordNNN 0x5 bits
  | .nop8 bits => wordNNN 0x8 bits
  | .nop9 bits => wordNNN 0x9 bits
  | .nopE bits => wordNNN 0xE bits
  | .nopF bits => wordNNN 0xF bits

/-- The two bytes of a word as the hardware stores them: bits 15:8 at the lower address (R63, R64). -/
def wordBytes (w : Word) : List Byte := [w.extractLsb' 8 8, w.extractLsb' 0 8]

/-- The bytes of an instruction, lowest address first. -/
def encodeBytes (i : Instr) : List Byte := wordBytes (encode i)

/-- The word of an opcode-table row: its low `nbits` bits are those of `w`, the bits above them 0. -/
def tableWord (nbits w : Nat) : Word := BitVec.ofNat 16 (w % 2 ^ nbits)

/-- What the decoder reads from an instruction whose bits are `w`, numbered as spec/opcode_table.json numbers them
(log 25). No instruction has more than one 16-bit word (R91). -/
def decodeTableWord (nbits w : Nat) : Option Instr :=
  if 16 < nbits then none
  else
    match decodeBytes (wordBytes (tableWord nbits w)) with
    | .ok (i, _) => some i
    | .error _ => none

/-- An opcode-table row: a word selects it iff `w & mask = val` (R96). -/
structure TableRow where
  /-- The row's `match`. -/
  val : Word
  /-- The row's `mask`. -/
  mask : Word
  deriving DecidableEq, Repr

/-- `w` selects the row (R96). -/
def TableRow.selects (r : TableRow) (w : Word) : Bool := w &&& r.mask == r.val

/-- The 34 defined rows of the opcode map (R96), in its order. -/
def definedRows : List TableRow :=
  [⟨0x00E0, 0xF0FF⟩, ⟨0x00EE, 0xF0FF⟩, ⟨0x1000, 0xF000⟩, ⟨0x2000, 0xF000⟩, ⟨0x3000, 0xF000⟩, ⟨0x4000, 0xF000⟩,
   ⟨0x5000, 0xF00F⟩, ⟨0x6000, 0xF000⟩, ⟨0x7000, 0xF000⟩] ++
  [⟨0x8000, 0xF00F⟩, ⟨0x8001, 0xF00F⟩, ⟨0x8002, 0xF00F⟩, ⟨0x8003, 0xF00F⟩, ⟨0x8004, 0xF00F⟩, ⟨0x8005, 0xF00F⟩,
   ⟨0x8006, 0xF00F⟩, ⟨0x8007, 0xF00F⟩, ⟨0x800E, 0xF00F⟩] ++
  [⟨0x9000, 0xF00F⟩, ⟨0xA000, 0xF000⟩, ⟨0xB000, 0xF000⟩, ⟨0xC000, 0xF000⟩, ⟨0xD000, 0xF000⟩, ⟨0xE09E, 0xF0FF⟩,
   ⟨0xE0A1, 0xF0FF⟩] ++
  [⟨0xF007, 0xF0FF⟩, ⟨0xF00A, 0xF0FF⟩, ⟨0xF015, 0xF0FF⟩, ⟨0xF018, 0xF0FF⟩, ⟨0xF01E, 0xF0FF⟩, ⟨0xF029, 0xF0FF⟩,
   ⟨0xF033, 0xF0FF⟩, ⟨0xF055, 0xF0FF⟩, ⟨0xF065, 0xF0FF⟩]

/-- The row of an instruction in spec/opcode_table.json (the last six: the fallback rows). -/
def Instr.row : Instr → TableRow
  | .cls _ => ⟨0x00E0, 0xF0FF⟩
  | .ret _ => ⟨0x00EE, 0xF0FF⟩
  | .jp _ => ⟨0x1000, 0xF000⟩
  | .call _ => ⟨0x2000, 0xF000⟩
  | .seImm _ _ => ⟨0x3000, 0xF000⟩
  | .sneImm _ _ => ⟨0x4000, 0xF000⟩
  | .seReg _ _ => ⟨0x5000, 0xF00F⟩
  | .ldImm _ _ => ⟨0x6000, 0xF000⟩
  | .addImm _ _ => ⟨0x7000, 0xF000⟩
  | .ldReg _ _ => ⟨0x8000, 0xF00F⟩
  | .orReg _ _ => ⟨0x8001, 0xF00F⟩
  | .andReg _ _ => ⟨0x8002, 0xF00F⟩
  | .xorReg _ _ => ⟨0x8003, 0xF00F⟩
  | .addReg _ _ => ⟨0x8004, 0xF00F⟩
  | .subReg _ _ => ⟨0x8005, 0xF00F⟩
  | .shrReg _ _ => ⟨0x8006, 0xF00F⟩
  | .subnReg _ _ => ⟨0x8007, 0xF00F⟩
  | .shlReg _ _ => ⟨0x800E, 0xF00F⟩
  | .sneReg _ _ => ⟨0x9000, 0xF00F⟩
  | .ldI _ => ⟨0xA000, 0xF000⟩
  | .jpV0 _ => ⟨0xB000, 0xF000⟩
  | .rnd _ _ => ⟨0xC000, 0xF000⟩
  | .drw _ _ _ => ⟨0xD000, 0xF000⟩
  | .skp _ => ⟨0xE09E, 0xF0FF⟩
  | .sknp _ => ⟨0xE0A1, 0xF0FF⟩
  | .ldVxDt _ => ⟨0xF007, 0xF0FF⟩
  | .ldVxK _ => ⟨0xF00A, 0xF0FF⟩
  | .ldDtVx _ => ⟨0xF015, 0xF0FF⟩
  | .ldStVx _ => ⟨0xF018, 0xF0FF⟩
  | .addI _ => ⟨0xF01E, 0xF0FF⟩
  | .ldF _ => ⟨0xF029, 0xF0FF⟩
  | .ldB _ => ⟨0xF033, 0xF0FF⟩
  | .storeRegs _ => ⟨0xF055, 0xF0FF⟩
  | .loadRegs _ => ⟨0xF065, 0xF0FF⟩
  | .nop0 _ => ⟨0x0000, 0xF000⟩
  | .nop5 _ => ⟨0x5000, 0xF000⟩
  | .nop8 _ => ⟨0x8000, 0xF000⟩
  | .nop9 _ => ⟨0x9000, 0xF000⟩
  | .nopE _ => ⟨0xE000, 0xF000⟩
  | .nopF _ => ⟨0xF000, 0xF000⟩

/-- A no-op row (`"priority": 1` in the opcode table). -/
def Instr.isNop : Instr → Bool
  | .nop0 _ | .nop5 _ | .nop8 _ | .nop9 _ | .nopE _ | .nopF _ => true
  | .cls _ | .ret _ | .jp _ | .call _ | .ldI _ | .jpV0 _ => false
  | .seImm _ _ | .sneImm _ _ | .ldImm _ _ | .addImm _ _ | .rnd _ _ => false
  | .seReg _ _ | .sneReg _ _ | .ldReg _ _ | .orReg _ _ | .andReg _ _ | .xorReg _ _ => false
  | .addReg _ _ | .subReg _ _ | .shrReg _ _ | .subnReg _ _ | .shlReg _ _ => false
  | .drw _ _ _ => false
  | .skp _ | .sknp _ | .ldVxDt _ | .ldVxK _ | .ldDtVx _ | .ldStVx _ => false
  | .addI _ | .ldF _ | .ldB _ | .storeRegs _ | .loadRegs _ => false

end Sys2Proof
end

