-- ==== Sys2Proof/Config.lean ====
section
/-!
DEFINITION. What an implementation fixes (spec 00_scope.md R5, R6) and the one free value of the machine, the random
byte (41_alu.md R141). The parameters `FONT` and `MEM_FILL` are bytes of memory and stand in Sys2Proof/Machine/Font.lean.
-/

namespace Sys2Proof

/-- `MEM_SIZE` (R5): addresses `0x000` to `0xFFF`. -/
@[reducible, simp] def Config.memSize : Nat := 4096

/-- `PROG_BASE` (R5): first byte of the loaded program, reset value of `pc`. -/
@[reducible, simp] def Config.progBase : Nat := 0x200

/-- `PROG_LIMIT` (R5, 90_conflicts.md C1): a program of length `L` is accepted iff `L < PROG_LIMIT`. -/
@[reducible, simp] def Config.progLimit : Nat := 3584

/-- `FONT_BASE` (R5). -/
@[reducible, simp] def Config.fontBase : Nat := 0

/-- `GLYPH_BYTES` (R5). -/
@[reducible, simp] def Config.glyphBytes : Nat := 5

/-- `STACK_DEPTH` (R5). -/
@[reducible, simp] def Config.stackDepth : Nat := 16

/-- `DISP_W` (R5). -/
@[reducible, simp] def Config.dispW : Nat := 64

/-- `DISP_H` (R5). -/
@[reducible, simp] def Config.dispH : Nat := 32

/-- `RAND_MAX` (R6, D19, C2): the default of the spec, log 2. -/
@[reducible, simp] def Config.randMax : Nat := 255

/-- A random draw: any value in `0..RAND_MAX`, under no other law (R7, R141). -/
abbrev Draw := Fin (Config.randMax + 1)

/-- The byte of a draw. -/
def Draw.toByte (d : Draw) : Byte := BitVec.ofNat 8 d.val

/-- FREE VALUE (log 1): the `k`-th random draw of a `CYCLE` whose argument no scheduled event supplies. It has no
body, so nothing can be proved of its value but that it lies in `0..RAND_MAX` (R141). DESIGN CHOICE, safe. -/
opaque Config.rndDraw : Nat → Draw

end Sys2Proof
end

