-- ==== Sys2Proof/Machine/Font.lean ====
section
/-!
DEFINITION. The reset contents of memory: the parameters `FONT` and `MEM_FILL` (spec 00_scope.md R6; 10_state.md R33,
R39; D8, D9). They are what an address reads as that memory does not list.
-/

namespace Sys2Proof.Machine

/-- `MEM_FILL` (R6, D8, log 4). -/
def memFill : Byte := 0x00

/-- The glyphs of the digits 0 to 7 (R33). -/
def fontLow : List Byte :=
  [0xF0, 0x90, 0x90, 0x90, 0xF0] ++ [0x20, 0x60, 0x20, 0x20, 0x70] ++
  [0xF0, 0x10, 0xF0, 0x80, 0xF0] ++ [0xF0, 0x10, 0xF0, 0x10, 0xF0] ++
  [0x90, 0x90, 0xF0, 0x10, 0x10] ++ [0xF0, 0x80, 0xF0, 0x10, 0xF0] ++
  [0xF0, 0x80, 0xF0, 0x90, 0xF0] ++ [0xF0, 0x10, 0x20, 0x40, 0x40]

/-- The glyphs of the digits 8 to F (R33). -/
def fontHigh : List Byte :=
  [0xF0, 0x90, 0xF0, 0x90, 0xF0] ++ [0xF0, 0x90, 0xF0, 0x10, 0xF0] ++
  [0xF0, 0x90, 0xF0, 0x90, 0x90] ++ [0xE0, 0x90, 0xE0, 0x90, 0xE0] ++
  [0xF0, 0x80, 0x80, 0x80, 0xF0] ++ [0xE0, 0x90, 0x90, 0x90, 0xE0] ++
  [0xF0, 0x80, 0xF0, 0x80, 0xF0] ++ [0xF0, 0x80, 0xF0, 0x80, 0x80]

/-- `FONT`: the 80 font bytes, the spec's default (R33, D9). PRESUMED: the spec took them from general knowledge
(log 3), unsafe for claims about glyph pixels. -/
def font : List Byte := fontLow ++ fontHigh

/-- The byte at an address after `RESET`: the font at `FONT_BASE`, `MEM_FILL` elsewhere (R39, R61). -/
def resetByte (a : Nat) : Byte := (font[a - Config.fontBase]?).getD memFill

end Sys2Proof.Machine
end

