-- ==== Sys2Proof/Machine/State.lean ====
section
/-!
DEFINITION. The state of the machine (spec 10_state.md R20), the host's events (00_scope.md R7), why a step can stop
(60_exceptions.md R205), and the state after `RESET` (10_state.md R39). State is plain data.
-/

namespace Sys2Proof.Machine

/-- The six events by which the machine changes state (R7). -/
inductive Event where
  /-- `RESET` (70_reset_and_hazards.md R240). -/
  | reset
  /-- `LOAD(bytes)` (R246). -/
  | load (bytes : List Byte)
  /-- `CYCLE(rnd)` (30_encoding.md R90), with the random byte of that step (41_alu.md R141). -/
  | cycle (rnd : Draw)
  /-- `TICK` (60_exceptions.md R215). -/
  | tick
  /-- `SET_KEYS(mask)` (R212). -/
  | setKeys (mask : Word)
  /-- `CONSUME_FRAME` (R213). -/
  | consumeFrame
  deriving DecidableEq, Repr

/-- `display[0..31][0..63]`: 32 rows of 64 pixel words (R28). -/
abbrev Display := Vector (Vector Pixel 64) 32

/-- The State record of R20, and after it four fields of the model's own. -/
structure State where
  /-- `V[0..15]` (R21); `V[15]` is `VF` (R22). -/
  v : Vector Byte 16
  /-- `memory[0..4095]` (R32): the cells that differ from the reset contents, in one canonical form. -/
  memory : List Host.Cell
  /-- `index` (R24). -/
  index : Word
  /-- `pc` (R23). -/
  pc : Word
  /-- `stack[0..15]` (R25). -/
  stack : Vector Word 16
  /-- `sp`, how many slots are occupied: 0 to 16 (R25, R35). -/
  sp : Fin 17
  /-- `delayTimer` (R26). -/
  delayTimer : Byte
  /-- `soundTimer` (R27). -/
  soundTimer : Byte
  /-- `display` (R28). -/
  display : Display
  /-- `keypadMask` (R29). -/
  keypadMask : Word
  /-- `keyAwaited`, "none" or a key 0 to 15 (R30). -/
  keyAwaited : Option Nibble
  /-- `displayReady` (R31). -/
  displayReady : Bool
  /-- The model's own (log 8): the last event was `RESET`, so `LOAD` is defined (R246, D16). -/
  justReset : Bool
  /-- The model's own (log 1): the argument `rnd` of the `CYCLE` in progress; none where no event supplies it. -/
  rndInput : Option Draw
  /-- The model's own (log 1): how many free draws have been consumed. -/
  rndCount : Nat
  /-- The model's own (log 7): the host's events to come, oldest first. With none left, a `CYCLE` comes. -/
  schedule : List Event
  deriving DecidableEq, Repr

/-- The faults an event reports (R205); the state is then as it was when the event began (R203, log 10). -/
inductive Fault where
  /-- Raised by `2nnn` when `sp = 16`, with its address (R200). Safe: the spec's own fault. -/
  | stackOverflow (a : Word)
  /-- Raised by `00EE` when `sp = 0`, with its address (R201). Safe: the spec's own fault. -/
  | stackUnderflow (a : Word)
  /-- Raised by a fetch, `Dxyn`, `Fx33`, `Fx55` or `Fx65` that would access an address above `0xFFF`, with the fetch
  address or the highest data address (R202). Safe: the spec's own fault (D2, log 11). -/
  | addressOutOfRange (addr : Nat)
  /-- Raised by `LOAD` of 3584 bytes or more, with their number (R246). Safe: the spec's own fault. -/
  | loadRejected (len : Nat)
  deriving DecidableEq, Repr

/-- What the model refuses. -/
inductive Refusal where
  /-- Raised by an arm of exec for an instruction without a meaning; no instruction is without one. Safe. -/
  | notModelled (mnemonic : String)
  /-- Raised by a `LOAD` that is not the event directly after `RESET`: "a `LOAD` at any other time has no defined
  meaning and a model refuses it" (R246, D16, log 8). Safe. -/
  | loadNotDirectlyAfterReset
  deriving DecidableEq, Repr

/-- R39: the state directly after `RESET`. Memory lists nothing: it holds the reset contents (logs 3 to 7). -/
def State.reset : State where
  v := Vector.replicate 16 0
  memory := []
  index := 0
  pc := 0x200
  stack := Vector.replicate 16 0
  sp := 0
  delayTimer := 0
  soundTimer := 0
  display := Vector.replicate 32 (Vector.replicate 64 0)
  keypadMask := 0
  keyAwaited := none
  displayReady := false
  justReset := true
  rndInput := none
  rndCount := 0
  schedule := []

end Sys2Proof.Machine
end

