-- ==== Sys2Proof/Machine/Ops.lean ====
section
/-!
DEFINITION. The named operations over memory, registers, `pc` and display that every meaning is written with
(spec 00_scope.md R9, R10; 20_memory.md R62 to R69; 43_display.md R162), and reporting a fault (60_exceptions.md R203).
-/

namespace Sys2Proof.Machine

/-- The result of an event. -/
abbrev Result := Host.Outcome State Fault Refusal

/-- `raise F(info)` (R9): the event ends and reports the fault. The machine has no trap entry and no handler (R209), so
reporting is all that taking a fault is; the state stays as it was when the event began (R203, D5, log 10). -/
def raise (f : Fault) : Result := .fault f

/-! Memory (R60, R62). A list of cells over the reset contents; the laws of reading and writing hold for every list. -/

/-- `memory[a]`, of a list of cells. -/
def Memory.read : List Host.Cell → Nat → Byte
  | [], a => resetByte a
  | c :: rest, a => if c.1 = a then c.2 else Memory.read rest a

/-- The cells but those at `a`. -/
def Memory.erase (m : List Host.Cell) (a : Nat) : List Host.Cell := m.filter (fun c => c.1 != a)

/-- The cells with one put in before the first cell of a higher address. -/
def Memory.insert : List Host.Cell → Host.Cell → List Host.Cell
  | [], n => [n]
  | c :: rest, n => if n.1 < c.1 then n :: c :: rest else c :: Memory.insert rest n

/-- `memory[a] <- b`, keeping the canonical form: a byte that an unlisted address reads as is not listed. -/
def Memory.write (m : List Host.Cell) (a : Nat) (b : Byte) : List Host.Cell :=
  if b = resetByte a then Memory.erase m a else Memory.insert (Memory.erase m a) (a, b)

/-- The canonical form: addresses strictly rising, all inside memory, and none listed that reads as if unlisted. -/
abbrev Memory.wf (m : List Host.Cell) : Prop :=
  m.Pairwise (fun c d => c.1 < d.1) ∧ ∀ c ∈ m, c.1 < Config.memSize ∧ c.2 ≠ resetByte c.1

/-- Bytes written from an address upwards. -/
def Memory.writeBytes (m : List Host.Cell) (a : Nat) : List Byte → List Host.Cell
  | [] => m
  | b :: bs => Memory.writeBytes (Memory.write m a b) (a + 1) bs

/-- `memory[a]` (R62). -/
def State.readByte (s : State) (a : Nat) : Byte := Memory.read s.memory a

/-- R69: an instruction that accesses the `len` bytes from `base` reports `AddressOutOfRange` of the highest of them if
that is above `0xFFF`, and only otherwise has its effect, the state `t`. No access where `len` is 0. -/
def accessRange (base len : Nat) (t : State) : Result :=
  if 0 < len ∧ 0xFFF < base + len - 1 then raise (.addressOutOfRange (base + len - 1)) else .next t

/-! Registers (R21, R22). -/

/-- `V[i]`. -/
def State.reg (s : State) (i : Nibble) : Byte := s.v[i.toNat]'i.isLt

/-- `V[i] <- b`. -/
def State.setReg (s : State) (i : Nibble) (b : Byte) : State := { s with v := s.v.set i.toNat b i.isLt }

/-- `VF` (R22). -/
def State.vf (s : State) : Byte := s.reg 0xF

/-- A result and a flag: `V[x]` is written first and `VF` last, so that the flag wins when `x = 15` (R11, R143, D12,
log 16). -/
def State.setRegFlag (s : State) (x : Nibble) (r flag : Byte) : State := (s.setReg x r).setReg 0xF flag

/-! The program counter (R10, R90). A meaning starts after the fetch advance. -/

/-- `a`, the address of the instruction, which the fetch advance left 2 below `pc` (R10, log 26). -/
def State.instrAddr (s : State) : Word := s.pc - 2

/-- `stall`: `pc <- a`, the fetch advance is undone (R9). -/
def State.stall (s : State) : State := { s with pc := s.instrAddr }

/-- A taken skip: `pc <- pc + 2` modulo 2^16 (R129). -/
def State.skip (s : State) : State := { s with pc := s.pc + 2 }

/-- A skip taken iff the condition holds (R129). -/
def State.skipIf (s : State) (c : Bool) : State := if c then s.skip else s

/-- `pc <- t` (R128). -/
def State.jump (s : State) (t : Word) : State := { s with pc := t }

/-! Fetch (R63, R90). -/

/-- The word at an address: the byte at the lower address is bits 15:8 (R63, R64). -/
def State.readWord (s : State) (a : Nat) : Word := s.readByte a ++ s.readByte (a + 1)

/-- The instruction at `pc`. A fetch at or above `0xFFF` reports `AddressOutOfRange` of `pc` as a whole (R63, D2); any
other address is fetched, odd or even (R65, D3, log 12). The bytes go through `decodeBytes`, which finds two. -/
def fetch (s : State) : Except Fault Instr :=
  if 0xFFF < s.pc.toNat + 1 then .error (.addressOutOfRange s.pc.toNat)
  else .ok (decode (s.readWord s.pc.toNat))

/-- The start of `CYCLE(rnd)` around the dispatch: the fetch advance (R90), the argument `rnd`, and the note that the
event directly after `RESET` is past (log 8). -/
def State.advance (s : State) (rnd : Option Draw) : State :=
  { s with pc := s.pc + 2, rndInput := rnd, justReset := false }

/-- The memory with a word stored where the next instruction is fetched, in the hardware's byte order (R63). -/
def placeWord (m : List Host.Cell) (a : Nat) (w : Word) : List Host.Cell := Memory.writeBytes m a (wordBytes w)

/-! Pixels (R28, R162). -/

/-- An on pixel (R28). -/
def pixelOn : Pixel := 0xFFFFFFFF

/-- `display[r][c]`; 0 outside the display, which no rule reads (R162). -/
def Display.pixel (d : Display) (r c : Nat) : Pixel := if h : r < 32 ∧ c < 64 then d[r][c] else 0

/-- `on(r, c)` (R162). -/
def Display.on (d : Display) (r c : Nat) : Bool := Display.pixel d r c == pixelOn

/-- `toggle(r, c)` (R162, D26); nothing outside the display, where no rule calls it. -/
def Display.toggle (d : Display) (r c : Nat) : Display :=
  if h : r < 32 ∧ c < 64 then d.set r (d[r].set c (d[r][c] ^^^ pixelOn)) else d

/-- The display with every pixel off. -/
def Display.clear : Display := Vector.replicate 32 (Vector.replicate 64 0)

/-- `display[r][c]` of a state. -/
def State.pixel (s : State) (r c : Nat) : Pixel := Display.pixel s.display r c

/-! Keys (44_keypad_timers.md R176). -/

/-- `held(k)`: bit `k` of the keypad mask; a bit the mask does not have reads as clear (R176, D11, log 15). -/
def State.held (s : State) (k : Nat) : Bool := s.keypadMask.getLsbD k

/-- The least key that is held (R172, phase 1). -/
def State.leastHeld (s : State) : Option Nibble :=
  ((List.range 16).find? (fun k => s.held k)).map (fun k => BitVec.ofNat 4 k)

end Sys2Proof.Machine
end

