-- ==== Sys2Proof/Machine/Flags.lean ====
section
/-!
DEFINITION. The values `VF` is given (spec 10_state.md R22, 41_alu.md R142), each from the operands before the
instruction.
-/

namespace Sys2Proof.Machine

/-- A flag: 1 or 0. -/
def flag (c : Bool) : Byte := if c then 1 else 0

/-- `8xy4`: 1 iff a carry out of bit 7 occurred, the unsigned sum being above 255 (R136). -/
def carryFlag (a b : Byte) : Byte := flag (decide (255 < a.toNat + b.toNat))

/-- `8xy5`, `8xy7`: 1 iff no borrow occurred, minuend `>=` subtrahend (R137, R139). -/
def noBorrowFlag (a b : Byte) : Byte := flag (decide (b.toNat ≤ a.toNat))

/-- `8xy6`: bit 0, shifted out on the right (R138). -/
def bit0Flag (b : Byte) : Byte := flag (b.getLsbD 0)

/-- `8xyE`: bit 7, shifted out on the left (R140). -/
def bit7Flag (b : Byte) : Byte := flag (b.getLsbD 7)

/-- `8xy1`, `8xy2`, `8xy3`: always 0 (R133 to R135). -/
def logicFlag : Byte := flag false

/-- `Dxyn`: 1 iff a sprite bit landed on a pixel that was on (R161). -/
def collisionFlag (c : Bool) : Byte := flag c

end Sys2Proof.Machine
end

