-- ==== Sys2Proof/Machine/Operands.lean ====
section
/-!
DEFINITION. The operand forms (spec 30_encoding.md R94): the effective address, the register range of `Fx55` and `Fx65`,
the digits of `Fx33`, the glyph address of `Fx29`, the origin and the rows of a sprite, the random byte of `Cxkk`.
-/

namespace Sys2Proof.Machine

/-- The base of a data access: `index` as an integer, to which offsets are added without wrap (R68, D20, log 11). -/
def State.base (s : State) : Nat := s.index.toNat

/-- `index + k` modulo 2^16, the post-increment and `Fx1E` (R94, 42_index_memory.md R151, R154, R155). -/
def State.addIndex (s : State) (k : Word) : State := { s with index := s.index + k }

/-- `x + 1`, the number of registers of the range `V[0]..V[x]` (R94). -/
def rangeLen (x : Nibble) : Nat := x.toNat + 1

/-- The three decimal digits of a byte: hundreds, tens, units (R153). -/
def bcdDigits (b : Byte) : List Byte :=
  [BitVec.ofNat 8 (b.toNat / 100), BitVec.ofNat 8 (b.toNat / 10 % 10), BitVec.ofNat 8 (b.toNat % 10)]

/-- The address of a glyph: the formula on the whole 8-bit value, no masking (R152, D10, log 14). -/
def glyphAddr (b : Byte) : Word := BitVec.ofNat 16 Config.fontBase + 5 * zext16 b

/-- The first `n` registers, `V[0]` first. -/
def State.regsBelow (s : State) (n : Nat) : List Byte := s.v.toList.take n

/-- The first `n` registers loaded from the bytes at `a`, `a + 1`, ... of a memory (R155). -/
def loadRange (m : List Host.Cell) (a : Nat) (v : Vector Byte 16) : Nat → Vector Byte 16
  | 0 => v
  | k + 1 => (loadRange m a v k).setIfInBounds k (Memory.read m (a + k))

/-- The column of a sprite's origin (R161). -/
def originCol (b : Byte) : Nat := b.toNat % Config.dispW

/-- The row of a sprite's origin (R161). -/
def originRow (b : Byte) : Nat := b.toNat % Config.dispH

/-- The random byte of a `CYCLE` (R141): its argument where an event supplies one, else a free value (log 1). -/
def State.rndByte (s : State) : Byte := Draw.toByte (s.rndInput.getD (Config.rndDraw s.rndCount))

/-- A draw consumed: a free one is never used again. -/
def State.consumeDraw (s : State) : State :=
  { s with rndCount := if s.rndInput.isSome then s.rndCount else s.rndCount + 1 }

end Sys2Proof.Machine
end

