-- ==== Sys2Proof/Machine/Alu.lean ====
section
/-!
DEFINITION. Register file and ALU (spec 41_alu.md R130 to R143). Arithmetic wraps modulo 256 (R142); operands are the
values before the instruction, `V[x]` is written, then `VF` (R143).
-/

namespace Sys2Proof.Machine

/-- `6xkk` (R130). -/
def execLdImm (x : Nibble) (kk : Byte) (s : State) : Result := .next (s.setReg x kk)

/-- `7xkk` (R131): no flag. -/
def execAddImm (x : Nibble) (kk : Byte) (s : State) : Result := .next (s.setReg x (s.reg x + kk))

/-- `8xy0` (R132). -/
def execLdReg (x y : Nibble) (s : State) : Result := .next (s.setReg x (s.reg y))

/-- `8xy1` (R133). -/
def execOr (x y : Nibble) (s : State) : Result := .next (s.setRegFlag x (s.reg x ||| s.reg y) logicFlag)

/-- `8xy2` (R134). -/
def execAnd (x y : Nibble) (s : State) : Result := .next (s.setRegFlag x (s.reg x &&& s.reg y) logicFlag)

/-- `8xy3` (R135). -/
def execXor (x y : Nibble) (s : State) : Result := .next (s.setRegFlag x (s.reg x ^^^ s.reg y) logicFlag)

/-- `8xy4` (R136). -/
def execAddReg (x y : Nibble) (s : State) : Result :=
  .next (s.setRegFlag x (s.reg x + s.reg y) (carryFlag (s.reg x) (s.reg y)))

/-- `8xy5` (R137). -/
def execSub (x y : Nibble) (s : State) : Result :=
  .next (s.setRegFlag x (s.reg x - s.reg y) (noBorrowFlag (s.reg x) (s.reg y)))

/-- `8xy6` (R138): shifts `Vy`; the old `Vx` is not read. -/
def execShr (x y : Nibble) (s : State) : Result := .next (s.setRegFlag x (s.reg y >>> 1) (bit0Flag (s.reg y)))

/-- `8xy7` (R139). -/
def execSubn (x y : Nibble) (s : State) : Result :=
  .next (s.setRegFlag x (s.reg y - s.reg x) (noBorrowFlag (s.reg y) (s.reg x)))

/-- `8xyE` (R140): shifts `Vy`, truncated to 8 bits. -/
def execShl (x y : Nibble) (s : State) : Result := .next (s.setRegFlag x (s.reg y <<< 1) (bit7Flag (s.reg y)))

/-- `Cxkk` (R141): exactly one draw is consumed. -/
def execRnd (x : Nibble) (kk : Byte) (s : State) : Result := .next (s.consumeDraw.setReg x (s.rndByte &&& kk))

end Sys2Proof.Machine
end

