-- ==== Sys2Proof/Machine/Draw.lean ====
section
/-!
DEFINITION. The display framebuffer controller: clear and draw (spec 43_display.md R160 to R164).
-/

namespace Sys2Proof.Machine

/-- `00E0` (R160): nothing but the pixels; `displayReady` is neither tested nor set (D14, log 18). Bits 11:8 are
ignored (R98). -/
def execCls (_ign : Nibble) (s : State) : Result := .next { s with display := Display.clear }

/-- The bits of one sprite row `b`, drawn at row `r` from column `x0` (R161): the columns `js` in order, most
significant bit first; past the right edge the rest of the row is not drawn. The second component notes a collision. -/
def drawBits (b : Byte) (r x0 : Nat) : List Nat → Display × Bool → Display × Bool
  | [], p => p
  | j :: js, p =>
    if 64 ≤ x0 + j then p
    else if b.getLsbD (7 - j) then
      drawBits b r x0 js (Display.toggle p.1 r (x0 + j), p.2 || Display.on p.1 r (x0 + j))
    else drawBits b r x0 js p

/-- The rows `is` of a sprite, top to bottom (R161): row `i` is the byte at `base + i`; past the bottom edge the row and
those after it are not drawn. -/
def drawRows (m : List Host.Cell) (base x0 y0 : Nat) : List Nat → Display × Bool → Display × Bool
  | [], p => p
  | i :: is, p =>
    if 32 ≤ y0 + i then p
    else drawRows m base x0 y0 is (drawBits (Memory.read m (base + i)) (y0 + i) x0 (List.range 8) p)

/-- `Dxyn` that neither stalls nor faults (R161): the origin is read before `VF` is cleared; `VF` is 1 iff some bit
collided, and `displayReady` is set. -/
def State.drawSprite (s : State) (x y n : Nibble) : State :=
  let p := drawRows s.memory s.base (originCol (s.reg x)) (originRow (s.reg y)) (List.range n.toNat) (s.display, false)
  ({ s with display := p.1, displayReady := true }).setReg 0xF (collisionFlag p.2)

/-- `Dxyn` (R161): the stall first, with no other effect; then the range check of all `n` rows, drawn or clipped (D13,
log 17); then the draw. -/
def execDrw (x y n : Nibble) (s : State) : Result :=
  if s.displayReady then .next s.stall else accessRange s.base n.toNat (s.drawSprite x y n)

end Sys2Proof.Machine
end

