-- ==== Sys2Proof/Machine/Flow.lean ====
section
/-!
DEFINITION. Control transfer: jumps, call, return, skips on register values (spec 40_flow.md R120 to R129). A meaning
starts after the fetch advance, with `pc = a + 2` (R10).
-/

namespace Sys2Proof.Machine

/-- `1nnn` (R120). -/
def execJp (nnn : Addr12) (s : State) : Result := .next (s.jump (zext16 nnn))

/-- `2nnn` (R121, R200): push the post-fetch `pc`, then jump. -/
def execCall (nnn : Addr12) (s : State) : Result :=
  if h : s.sp.val < 16 then
    .next { s with stack := s.stack.set s.sp.val s.pc, sp := ⟨s.sp.val + 1, by omega⟩, pc := zext16 nnn }
  else raise (.stackOverflow s.instrAddr)

/-- `00EE` (R122, R201): decrement `sp`, then read the slot. Bits 11:8 are ignored (R98). -/
def execRet (_ign : Nibble) (s : State) : Result :=
  if h : 0 < s.sp.val then
    .next { s with sp := ⟨s.sp.val - 1, by omega⟩, pc := s.stack[s.sp.val - 1]'(by omega) }
  else raise (.stackUnderflow s.instrAddr)

/-- `Bnnn` (R123): the register is always `V[0]`; the sum is not masked (D4, log 13). -/
def execJpV0 (nnn : Addr12) (s : State) : Result := .next (s.jump (zext16 nnn + zext16 (s.reg 0)))

/-- `3xkk` (R124). -/
def execSeImm (x : Nibble) (kk : Byte) (s : State) : Result := .next (s.skipIf (s.reg x == kk))

/-- `4xkk` (R125). -/
def execSneImm (x : Nibble) (kk : Byte) (s : State) : Result := .next (s.skipIf (s.reg x != kk))

/-- `5xy0` (R126). -/
def execSeReg (x y : Nibble) (s : State) : Result := .next (s.skipIf (s.reg x == s.reg y))

/-- `9xy0` (R127). -/
def execSneReg (x y : Nibble) (s : State) : Result := .next (s.skipIf (s.reg x != s.reg y))

end Sys2Proof.Machine
end

