-- ==== Sys2Proof/Machine/IndexMemory.lean ====
section
/-!
DEFINITION. Index register and memory (spec 42_index_memory.md R150 to R156). Stores and loads check their whole range
before any effect (20_memory.md R69).
-/

namespace Sys2Proof.Machine

/-- `Annn` (R150). -/
def execLdI (nnn : Addr12) (s : State) : Result := .next { s with index := zext16 nnn }

/-- `Fx1E` (R151): modulo 2^16, no flag. -/
def execAddI (x : Nibble) (s : State) : Result := .next (s.addIndex (zext16 (s.reg x)))

/-- `Fx29` (R152): an address only; memory is not read. -/
def execLdF (x : Nibble) (s : State) : Result := .next { s with index := glyphAddr (s.reg x) }

/-- `Fx33` (R153): hundreds, tens, units; `index` is unchanged. -/
def execLdB (x : Nibble) (s : State) : Result :=
  accessRange s.base 3 { s with memory := Memory.writeBytes s.memory s.base (bcdDigits (s.reg x)) }

/-- `Fx55` (R154). -/
def execStoreRegs (x : Nibble) (s : State) : Result :=
  accessRange s.base (rangeLen x)
    ({ s with memory := Memory.writeBytes s.memory s.base (s.regsBelow (rangeLen x)) }.addIndex (zext16 x + 1))

/-- `Fx65` (R155): the base is the `index` of before the instruction for every register. -/
def execLoadRegs (x : Nibble) (s : State) : Result :=
  accessRange s.base (rangeLen x)
    ({ s with v := loadRange s.memory s.base s.v (rangeLen x) }.addIndex (zext16 x + 1))

end Sys2Proof.Machine
end

