-- ==== Sys2Proof/Machine/KeypadTimers.lean ====
section
/-!
DEFINITION. Keypad and timer instructions (spec 44_keypad_timers.md R170 to R176).
-/

namespace Sys2Proof.Machine

/-- `Ex9E` (R170). -/
def execSkp (x : Nibble) (s : State) : Result := .next (s.skipIf (s.held (s.reg x).toNat))

/-- `ExA1` (R171). -/
def execSknp (x : Nibble) (s : State) : Result := .next (s.skipIf (!s.held (s.reg x).toNat))

/-- `Fx07` (R173). -/
def execLdVxDt (x : Nibble) (s : State) : Result := .next (s.setReg x s.delayTimer)

/-- `Fx0A` (R172): phase 1 notes the least held key and stalls in either case; phase 2 stalls until that key is
released, then writes its number and lets `pc` advance. -/
def execLdVxK (x : Nibble) (s : State) : Result :=
  match s.keyAwaited with
  | none => .next { s with keyAwaited := s.leastHeld }.stall
  | some k =>
    if s.held k.toNat then .next s.stall
    else .next ({ s with keyAwaited := none }.setReg x (zext8 k))

/-- `Fx15` (R174). -/
def execLdDtVx (x : Nibble) (s : State) : Result := .next { s with delayTimer := s.reg x }

/-- `Fx18` (R175). -/
def execLdStVx (x : Nibble) (s : State) : Result := .next { s with soundTimer := s.reg x }

end Sys2Proof.Machine
end

