-- ==== Sys2Proof/Machine/Noop.lean ====
section
/-!
DEFINITION. The no-op space (spec 45_noop.md R180 to R186): nothing happens, `pc` stays at `a + 2` from the fetch
advance.
-/

namespace Sys2Proof.Machine

/-- R180: "(nothing)". -/
def noop (s : State) : Result := .next s

/-- NOP0 (R181). -/
def execNop0 (_bits : Addr12) (s : State) : Result := noop s

/-- NOP5 (R182). -/
def execNop5 (_bits : Addr12) (s : State) : Result := noop s

/-- NOP8 (R183). -/
def execNop8 (_bits : Addr12) (s : State) : Result := noop s

/-- NOP9 (R184). -/
def execNop9 (_bits : Addr12) (s : State) : Result := noop s

/-- NOPE (R185). -/
def execNopE (_bits : Addr12) (s : State) : Result := noop s

/-- NOPF (R186). -/
def execNopF (_bits : Addr12) (s : State) : Result := noop s

end Sys2Proof.Machine
end

