-- ==== Sys2Proof/Machine/HostEvents.lean ====
section
/-!
DEFINITION. The host's events but `CYCLE` (spec 60_exceptions.md R210 to R215, 70_reset_and_hazards.md R240, R246), and
what the host observes (10_state.md R38, 60_exceptions.md R214).
-/

namespace Sys2Proof.Machine

/-- One count down, not below 0 (R215). -/
def countDown (t : Byte) : Byte := if 0 < t.toNat then t - 1 else t

/-- `TICK` (R215): both timers in the same event (D24, log 23). -/
def tick (s : State) : State :=
  { s with delayTimer := countDown s.delayTimer, soundTimer := countDown s.soundTimer, justReset := false }

/-- `SET_KEYS(mask)` (R212). -/
def setKeys (mask : Word) (s : State) : State := { s with keypadMask := mask, justReset := false }

/-- `CONSUME_FRAME` (R213). -/
def consumeFrame (s : State) : State := { s with displayReady := false, justReset := false }

/-- `RESET` (R240), at any time (D16). The host's schedule and the count of free draws are not the machine's and stay
(log 9). -/
def resetEvent (s : State) : State := { State.reset with schedule := s.schedule, rndCount := s.rndCount }

/-- `LOAD(bytes)` (R246, C1, D25): defined only as the event directly after `RESET`; rejected before any copy when 3584
bytes or longer. -/
def loadProgram (bytes : List Byte) (s : State) : Result :=
  if s.justReset then
    if Config.progLimit ≤ bytes.length then raise (.loadRejected bytes.length)
    else .next { s with memory := Memory.writeBytes s.memory Config.progBase bytes, justReset := false }
  else .refused .loadNotDirectlyAfterReset

/-- The tone output (R27, R214): `soundTimer > 0`. -/
def State.tone (s : State) : Bool := decide (0 < s.soundTimer.toNat)

/-- The numeric code of a fault (R205, D6). -/
def faultCode : Fault → Nat
  | .stackOverflow _ => 1
  | .stackUnderflow _ => 2
  | .addressOutOfRange _ => 3
  | .loadRejected _ => 4

/-- The information a fault carries (R205, D6). -/
def faultInfo : Fault → Nat
  | .stackOverflow a => a.toNat
  | .stackUnderflow a => a.toNat
  | .addressOutOfRange addr => addr
  | .loadRejected len => len

/-- The display as the host reads it (R28, R213): 2048 words, row-major. -/
def State.frame (s : State) : List Pixel := (s.display.toList.map Vector.toList).flatten

end Sys2Proof.Machine
end

