-- ==== Sys2Proof/Machine/Step.lean ====
section
/-!
DEFINITION. One step (spec 00_scope.md R7, 30_encoding.md R90): the next event of the host's schedule, or a `CYCLE` where
the schedule holds none.
-/

namespace Sys2Proof.Machine

/-- `CYCLE(rnd)` (R90): fetch, fetch advance, decode, one dispatch. The argument is none where it is a free value. -/
def cycle (rnd : Option Draw) (s : State) : Host.Outcome State Fault Refusal :=
  match fetch s with
  | .error f => raise f
  | .ok i => exec i (s.advance rnd)

/-- One event (R7). -/
def issue (e : Event) (s : State) : Host.Outcome State Fault Refusal :=
  match e with
  | .reset => .next (resetEvent s)
  | .load bytes => loadProgram bytes s
  | .cycle rnd => cycle (some rnd) s
  | .tick => .next (tick s)
  | .setKeys mask => .next (setKeys mask s)
  | .consumeFrame => .next (consumeFrame s)

/-- One step: the oldest event of the schedule (log 7), or a `CYCLE`. -/
def step (s : State) : Host.Outcome State Fault Refusal :=
  match s.schedule with
  | [] => cycle none s
  | e :: es => issue e { s with schedule := es }

/-- `s` with the instruction of an opcode-table row stored at `pc`, big-endian, and no host event before the `CYCLE` that
fetches it (log 25). -/
def State.withFetchWord (s : State) (nbits w : Nat) : State :=
  { s with memory := placeWord s.memory s.pc.toNat (tableWord nbits w), schedule := [] }

end Sys2Proof.Machine
end

