-- ==== Sys2Proof/Machine/Substate.lean ====
section
/-!
DEFINITION. The interpreter state machine (spec 10_state.md R37): its sub-states are a function of the state, and the
resting program (70_reset_and_hazards.md R248).
-/

namespace Sys2Proof.Machine

/-- The sub-states of R37. -/
inductive Substate where
  /-- The steady state. -/
  | running
  /-- A draw at `pc` waits for the frame to be consumed. -/
  | drawStall
  /-- A key wait at `pc` waits for a press. -/
  | keyWaitPhase1
  /-- A key wait at `pc` waits for the release of key `k`. -/
  | keyWaitPhase2 (k : Nibble)
  deriving DecidableEq, Repr

/-- R37: the sub-state, `w` being the word at `pc`. At `pc >= 0xFFF`, where no word is at `pc` and a `CYCLE` faults, R37 says
nothing; DESIGN CHOICE (log 32): a byte above `0xFFF` is taken as `0x00` in `w` (memory in canonical form
lists none there), so that the sub-state at `pc = 0xFFF` is by
the class of the byte there and from `0x1000` on it is `running`. No meaning and no step reads the sub-state. -/
def State.substate (s : State) : Substate :=
  let w := s.readWord s.pc.toNat
  if opClass w = 0xD ∧ s.displayReady then .drawStall
  else if opClass w = 0xF ∧ fieldKk w = 0x0A then
    match s.keyAwaited with
    | none => .keyWaitPhase1
    | some k => .keyWaitPhase2 k
  else .running

/-- R248: the machine rests at `a` when `pc = a` and the word at `a` is `1nnn` with `nnn = a`. -/
def State.restsAt (s : State) (a : Addr12) : Prop :=
  s.pc = zext16 a ∧ a.toNat < 0xFFF ∧ s.readWord a.toNat = wordNNN 0x1 a

end Sys2Proof.Machine
end

