-- ==== Sys2Proof/Safety.lean ====
section
/-!
DEFINITION. The terms claims use: a session of events with the host's record of faults (spec 60_exceptions.md R203,
R204, D7), the invariants (10_state.md R23, R30, R35), when a `CYCLE` faults (60_exceptions.md R202, R205), and the
access matrix (10_state.md R34).
-/

namespace Sys2Proof.Safety

open Sys2Proof.Machine

/-! Sessions. -/

/-- What the host is told of an event that does not return `Ok`. -/
inductive Report where
  /-- The event returned a fault (R203). -/
  | fault (f : Fault)
  /-- The model has no such event (R246, D16). -/
  | refused (r : Refusal)
  deriving DecidableEq, Repr

/-- The state after an event and what it reports. After a fault every element of the state is as it was when the event
began (R203); the faulted event was the one after `RESET`, if any was, so a `LOAD` after it is no longer defined (R246:
only "directly after `RESET`"; log 8). -/
def settle (s : State) : Result → State × List Report
  | .next t => (t, [])
  | .fault f => ({ s with justReset := false }, [.fault f])
  | .refused r => (s, [.refused r])

/-- A session: the host issues the events in order and keeps a record of the reports (R204, D7). -/
def session : List Event → State → State × List Report
  | [], s => (s, [])
  | e :: es, s =>
    let p := settle s (issue e s)
    let q := session es p.1
    (q.1, p.2 ++ q.2)

/-- A safe run: no event of the session reported anything (D7). -/
def Clean (es : List Event) (s : State) : Prop := (session es s).2 = []

/-- An event that is neither `RESET` nor `LOAD`. -/
def running : Event → Bool
  | .cycle _ | .tick | .setKeys _ | .consumeFrame => true
  | .reset | .load _ => false

/-- A `CYCLE`. -/
def isCycle : Event → Bool
  | .cycle _ => true
  | .tick | .setKeys _ | .consumeFrame | .reset | .load _ => false

/-! Frames. -/

/-- Every byte of memory reads as before. -/
def SameBytes (s t : State) : Prop := ∀ a, t.readByte a = s.readByte a

/-- Nothing but the general registers differs. -/
def OnlyRegisters (s t : State) : Prop := t = { s with v := t.v } ∧ SameBytes s t

/-- `V[x]` is `r`, every other register and everything else is as before. -/
def WritesRegister (s t : State) (x : Nibble) (r : Byte) : Prop :=
  (∀ i, t.reg i = if i = x then r else s.reg i) ∧ OnlyRegisters s t

/-- `VF` is `f`; `V[x]` is `r` unless `x = 15`, where the flag, written last, wins (R143, D12); every other register and
everything else is as before. -/
def WritesResultAndFlag (s t : State) (x : Nibble) (r f : Nat) : Prop :=
  t.vf.toNat = f ∧ (x ≠ 0xF → (t.reg x).toNat = r) ∧ (∀ i, i ≠ x → i ≠ 0xF → t.reg i = s.reg i) ∧ OnlyRegisters s t

/-! Invariants. -/

/-- Memory is in its canonical form, which is the model's own (log 4). -/
def MemoryCanonical (s : State) : Prop := Memory.wf s.memory

/-- R35 (ii): every display word is `0x00000000` or `0xFFFFFFFF`. -/
def PixelsTwoValued (s : State) : Prop := ∀ r c, s.pixel r c = 0x00000000 ∨ s.pixel r c = 0xFFFFFFFF

/-- R23: `pc` never exceeds `0x10FE`, and a return address never exceeds `0x1000`. -/
def PcBounded (s : State) : Prop := s.pc.toNat ≤ 0x10FE ∧ ∀ i : Fin 16, (s.stack[i]).toNat ≤ 0x1000

/-- D23: while a key is awaited the word at `pc` is an `Fx0A`; and none is awaited directly after `RESET`, the one moment
`LOAD` can write memory (R246). -/
def KeyWaitAtPc (s : State) : Prop :=
  (s.keyAwaited ≠ none → s.pc.toNat < 0xFFF ∧ ∃ x, decode (s.readWord s.pc.toNat) = .ldVxK x) ∧
  (s.justReset = true → s.keyAwaited = none)

/-! Faults. -/

/-- The faults of a `CYCLE` in the state `s` that begins it, from the table of R205 and R202. -/
inductive CycleFaults (s : State) : Fault → Prop where
  /-- R202 (i). -/
  | fetch (h : 0xFFF ≤ s.pc.toNat) : CycleFaults s (.addressOutOfRange s.pc.toNat)
  /-- R200. -/
  | call (nnn : Addr12) (h : s.pc.toNat < 0xFFF) (hw : decode (s.readWord s.pc.toNat) = .call nnn) (hs : s.sp = 16) :
      CycleFaults s (.stackOverflow s.pc)
  /-- R201. -/
  | ret (ign : Nibble) (h : s.pc.toNat < 0xFFF) (hw : decode (s.readWord s.pc.toNat) = .ret ign) (hs : s.sp = 0) :
      CycleFaults s (.stackUnderflow s.pc)
  /-- R202 (ii). -/
  | bcd (x : Nibble) (h : s.pc.toNat < 0xFFF) (hw : decode (s.readWord s.pc.toNat) = .ldB x)
      (hi : 0xFFF < s.index.toNat + 2) : CycleFaults s (.addressOutOfRange (s.index.toNat + 2))
  /-- R202 (iii), `Fx55`. -/
  | store (x : Nibble) (h : s.pc.toNat < 0xFFF) (hw : decode (s.readWord s.pc.toNat) = .storeRegs x)
      (hi : 0xFFF < s.index.toNat + x.toNat) : CycleFaults s (.addressOutOfRange (s.index.toNat + x.toNat))
  /-- R202 (iii), `Fx65`. -/
  | load (x : Nibble) (h : s.pc.toNat < 0xFFF) (hw : decode (s.readWord s.pc.toNat) = .loadRegs x)
      (hi : 0xFFF < s.index.toNat + x.toNat) : CycleFaults s (.addressOutOfRange (s.index.toNat + x.toNat))
  /-- R202 (iv). -/
  | draw (x y n : Nibble) (h : s.pc.toNat < 0xFFF) (hw : decode (s.readWord s.pc.toNat) = .drw x y n)
      (hr : s.displayReady = false) (hn : 0 < n.toNat) (hi : 0xFFF < s.index.toNat + n.toNat - 1) :
      CycleFaults s (.addressOutOfRange (s.index.toNat + n.toNat - 1))

/-! The access matrix (R34). -/

/-- The registers the matrix lets an instruction write; a row that may write `Vx` and `VF` lets it write both. -/
def mayWrite : Instr → Nibble → Bool
  | .cls _, _ | .ret _, _ | .jp _, _ | .call _, _ | .seImm _ _, _ | .sneImm _ _, _ | .seReg _ _, _ => false
  | .ldImm x _, r | .addImm x _, r | .ldReg x _, r | .rnd x _, r => r == x
  | .orReg x _, r | .andReg x _, r | .xorReg x _, r | .addReg x _, r | .subReg x _, r => r == x || r == 0xF
  | .shrReg x _, r | .subnReg x _, r | .shlReg x _, r => r == x || r == 0xF
  | .sneReg _ _, _ | .ldI _, _ | .jpV0 _, _ => false
  | .drw _ _ _, r => r == 0xF
  | .skp _, _ | .sknp _, _ => false
  | .ldVxDt x, r | .ldVxK x, r => r == x
  | .ldDtVx _, _ | .ldStVx _, _ | .addI _, _ | .ldF _, _ | .ldB _, _ | .storeRegs _, _ => false
  | .loadRegs x, r => decide (r.toNat ≤ x.toNat)
  | .nop0 _, _ | .nop5 _, _ | .nop8 _, _ | .nop9 _, _ | .nopE _, _ | .nopF _, _ => false

/-- The instructions that write `pc` again after the fetch advance, on some operands at least. -/
def mayWritePc : Instr → Bool
  | .ret _ | .jp _ | .call _ | .jpV0 _ => true
  | .seImm _ _ | .sneImm _ _ | .seReg _ _ | .sneReg _ _ | .skp _ | .sknp _ => true
  | .drw _ _ _ | .ldVxK _ => true
  | .cls _ | .ldImm _ _ | .addImm _ _ | .ldReg _ _ | .orReg _ _ | .andReg _ _ | .xorReg _ _ => false
  | .addReg _ _ | .subReg _ _ | .shrReg _ _ | .subnReg _ _ | .shlReg _ _ | .ldI _ | .rnd _ _ => false
  | .ldVxDt _ | .ldDtVx _ | .ldStVx _ | .addI _ | .ldF _ | .ldB _ | .storeRegs _ | .loadRegs _ => false
  | .nop0 _ | .nop5 _ | .nop8 _ | .nop9 _ | .nopE _ | .nopF _ => false

/-- The instructions that write `index`. -/
def mayWriteIndex : Instr → Bool
  | .ldI _ | .addI _ | .ldF _ | .storeRegs _ | .loadRegs _ => true
  | .ret _ | .jp _ | .call _ | .jpV0 _ => false
  | .seImm _ _ | .sneImm _ _ | .seReg _ _ | .sneReg _ _ | .skp _ | .sknp _ => false
  | .drw _ _ _ | .ldVxK _ => false
  | .cls _ | .ldImm _ _ | .addImm _ _ | .ldReg _ _ | .orReg _ _ | .andReg _ _ | .xorReg _ _ => false
  | .addReg _ _ | .subReg _ _ | .shrReg _ _ | .subnReg _ _ | .shlReg _ _ | .rnd _ _ => false
  | .ldVxDt _ | .ldDtVx _ | .ldStVx _ | .ldB _ => false
  | .nop0 _ | .nop5 _ | .nop8 _ | .nop9 _ | .nopE _ | .nopF _ => false

/-- The addresses an instruction stores to: `memory[index..index+2]` or `memory[index..index+x]`. -/
def storesTo (s : State) : Instr → Nat → Prop
  | .ldB _, a => s.base ≤ a ∧ a < s.base + 3
  | .storeRegs x, a => s.base ≤ a ∧ a < s.base + rangeLen x
  | .cls _, _ | .ret _, _ | .jp _, _ | .call _, _ | .seImm _ _, _ | .sneImm _ _, _ | .seReg _ _, _ => False
  | .ldImm _ _, _ | .addImm _ _, _ | .ldReg _ _, _ | .rnd _ _, _ => False
  | .orReg _ _, _ | .andReg _ _, _ | .xorReg _ _, _ | .addReg _ _, _ | .subReg _ _, _ => False
  | .shrReg _ _, _ | .subnReg _ _, _ | .shlReg _ _, _ => False
  | .sneReg _ _, _ | .ldI _, _ | .jpV0 _, _ | .drw _ _ _, _ | .skp _, _ | .sknp _, _ => False
  | .ldVxDt _, _ | .ldVxK _, _ | .ldDtVx _, _ | .ldStVx _, _ | .addI _, _ | .ldF _, _ | .loadRegs _, _ => False
  | .nop0 _, _ | .nop5 _, _ | .nop8 _, _ | .nop9 _, _ | .nopE _, _ | .nopF _, _ => False

/-! Sprites (43_display.md R161). -/

/-- The sprite of `n` rows at `index`, drawn with its origin at `(y0, x0)`, has a 1-bit at row `r`, column `c` of the
display. Pixels outside the display, where clipping cuts the sprite, are not asked for. -/
def covers (s : State) (x0 y0 n r c : Nat) : Bool :=
  decide (y0 ≤ r ∧ r < y0 + n ∧ x0 ≤ c ∧ c < x0 + 8) && (s.readByte (s.base + (r - y0))).getLsbD (7 - (c - x0))

end Sys2Proof.Safety
end

