-- ==== Sys2Proof/Certificates/Slice0/Obligations.lean ====
section
/-!
DEFINITION. The statements for the provers. Each says in its docstring which rules of spec/ it formalises. Where an
instruction's own statement gives `exec` a next state, the words of its pattern are shown to decode to it beside that.
-/

open Sys2Proof Sys2Proof.Machine Sys2Proof.Safety

/-! ### Encoding (30_encoding.md) -/

/-- R92, R95, R96: words written out from the opcode map decode to the instructions they stand for. That `0x01E0` is a
clear, bits 11:8 ignored, is the spec's own decision D15 (log 19). -/
def Obligations.SpecWordsDecodeAsWritten : Prop :=
  decode 0x00EE = .ret 0x0 ∧ decode 0x01E0 = .cls 0x1 ∧ decode 0x220E = .call 0x20E ∧ decode 0x8AB6 = .shrReg 0xA 0xB ∧
  decode 0xA234 = .ldI 0x234 ∧ decode 0xD01F = .drw 0x0 0x1 0xF ∧ decode 0xE5A1 = .sknp 0x5 ∧
  decode 0xF30A = .ldVxK 0x3 ∧ decode 0xF233 = .ldB 0x2 ∧ decode 0x0123 = .nop0 0x123

/-- R91, R93, R96: decoding the word, or the bytes, of any well-formed instruction gives it back. -/
def Obligations.DecodeUndoesEncode : Prop :=
  ∀ i : Instr, i.wellFormed = true → decode (encode i) = i ∧ decodeBytes (encodeBytes i) = .ok (i, [])

/-- R93, R95, R97: every word decodes to a well-formed instruction, whose word it is: no bit of a word is lost. -/
def Obligations.EncodeUndoesDecode : Prop :=
  ∀ w : Word, (decode w).wellFormed = true ∧ encode (decode w) = w

/-- R95 to R97: the rows of the opcode map are disjoint; every word selects the row of the instruction it decodes to; and
it decodes to a no-op exactly when it selects none of the 34 defined rows. That the rows of class 0 ignore bits 11:8 is the
spec's own decision D15 (log 19). -/
def Obligations.DecodeFollowsTheOpcodeMap : Prop :=
  definedRows.Pairwise (fun p q => ∀ w, ¬ (p.selects w = true ∧ q.selects w = true)) ∧
  ∀ w : Word, (decode w).row.selects w = true ∧
    ((decode w).isNop = true ↔ ∀ r ∈ definedRows, r.selects w = false)

/-! ### The step (30_encoding.md R90) -/

/-- R90, R7: where the two bytes at `pc` decode to `i`, a step is `exec i` on the state with `pc` advanced by 2 and the
argument of the `CYCLE` set: none with no event scheduled, the event's with a `CYCLE` scheduled. -/
def Obligations.StepRunsTheDecodedInstruction : Prop :=
  ∀ (s : State) (i : Instr), s.pc.toNat < 0xFFF →
    decodeBytes [s.readByte s.pc.toNat, s.readByte (s.pc.toNat + 1)] = .ok (i, []) →
    (s.schedule = [] → step s = exec i { s with pc := s.pc + 2, rndInput := none, justReset := false }) ∧
    (∀ d es, s.schedule = .cycle d :: es →
      step s = exec i { s with pc := s.pc + 2, rndInput := some d, justReset := false, schedule := es })

/-- R63, R202 (i): a fetch at or above `0xFFF` reports `AddressOutOfRange` of `pc`. The spec's own decision D2 (log 11). -/
def Obligations.FetchPastTheEndFaults : Prop :=
  ∀ s : State, s.schedule = [] → 0xFFF ≤ s.pc.toNat → step s = .fault (.addressOutOfRange s.pc.toNat)

/-! ### Reset, load and the host's events (60_exceptions.md, 70_reset_and_hazards.md) -/

/-- R241: after `RESET`, whatever memory holds, the first `CYCLE` fetches from `0x200`, and neither stall is active. -/
def Obligations.ResetEntersAtTheProgramBase : Prop :=
  State.reset.pc = 0x200 ∧ State.reset.keyAwaited = none ∧ State.reset.displayReady = false ∧
  State.reset.substate = .running ∧
  ∀ m, fetch { State.reset with memory := m } = .ok (decode (Memory.read m 0x200 ++ Memory.read m 0x201))

/-- R39: the values `RESET` leaves. `pc`, `sp`, the timers and the place of the font are the source's; the others are
the spec's own decision D8, and the font's bytes D9 (logs 3, 4, 5). -/
def Obligations.ResetLeavesTheStatedValues : Prop :=
  State.reset.pc = 0x200 ∧ State.reset.sp = 0 ∧ State.reset.delayTimer = 0 ∧ State.reset.soundTimer = 0 ∧
  (∀ i, State.reset.reg i = 0) ∧ State.reset.index = 0 ∧ (∀ r c, State.reset.pixel r c = 0) ∧
  State.reset.keypadMask = 0 ∧ State.reset.keyAwaited = none ∧ State.reset.displayReady = false ∧
  (∀ a, a < 80 → some (State.reset.readByte a) = font[a]?) ∧ (∀ a, 0x050 ≤ a → State.reset.readByte a = 0)

/-- R240: `RESET` puts every state element at its reset value, whatever the state was (at any time: the spec's D16). The
host's schedule and the count of free draws, which are the model's own, go on (log 9). -/
def Obligations.ResetEventRestoresEverything : Prop :=
  ∀ (s : State) es, s.schedule = .reset :: es →
    step s = .next { State.reset with schedule := es, rndCount := s.rndCount }

/-- R246 (D16, D25, C1): directly after `RESET` a program of fewer than 3584 bytes is copied to `0x200`, and nothing else
changes. -/
def Obligations.LoadCopiesTheProgram : Prop :=
  ∀ (s : State) (bytes : List Byte) es, s.schedule = .load bytes :: es → s.justReset = true → bytes.length < 3584 →
    ∃ t, step s = .next t ∧
      (∀ a, t.readByte a =
        if 0x200 ≤ a ∧ a < 0x200 + bytes.length then bytes.getD (a - 0x200) 0 else s.readByte a) ∧
      t = { s with memory := t.memory, justReset := false, schedule := es }

/-- R246, R205 (C1, D16): a program of 3584 bytes or more is rejected with its length; a `LOAD` that is not the event
directly after `RESET` is refused. -/
def Obligations.LoadIsRejectedOrRefused : Prop :=
  ∀ (s : State) (bytes : List Byte) es, s.schedule = .load bytes :: es →
    (s.justReset = true → 3584 ≤ bytes.length → step s = .fault (.loadRejected bytes.length)) ∧
    (s.justReset = false → step s = .refused .loadNotDirectlyAfterReset)

/-- R215: a `TICK` counts both timers down by one, never below 0, and changes nothing else (in one event: the spec's
D24). -/
def Obligations.TickCountsBothTimersDown : Prop :=
  ∀ (s : State) es, s.schedule = .tick :: es →
    ∃ t, step s = .next t ∧ t.delayTimer.toNat = s.delayTimer.toNat - 1 ∧ t.soundTimer.toNat = s.soundTimer.toNat - 1 ∧
      t = { s with delayTimer := t.delayTimer, soundTimer := t.soundTimer, justReset := false, schedule := es }

/-- R212: `SET_KEYS(mask)` replaces all 16 bits of the mask and nothing else, and never faults (`justReset` and `schedule`
are the model's own). -/
def Obligations.SetKeysReplacesTheMask : Prop :=
  ∀ (s : State) (mask : Word) es, s.schedule = .setKeys mask :: es →
    step s = .next { s with keypadMask := mask, justReset := false, schedule := es }

/-- R213: `CONSUME_FRAME` clears `displayReady` and nothing else. -/
def Obligations.ConsumeFrameClearsTheLatch : Prop :=
  ∀ (s : State) es, s.schedule = .consumeFrame :: es →
    step s = .next { s with displayReady := false, justReset := false, schedule := es }

/-- R28, R213: the frame the host reads is 2048 words, row-major. -/
def Obligations.FrameIsRowMajor : Prop :=
  ∀ s : State, s.frame.length = 2048 ∧ ∀ r c, r < 32 → c < 64 → s.frame[r * 64 + c]? = some (s.pixel r c)

/-! ### Control transfer (40_flow.md) -/

/-- R120. -/
def Obligations.JumpSetsPc : Prop :=
  ∀ (nnn : Addr12) (s : State), decode (wordNNN 0x1 nnn) = .jp nnn ∧
    exec (.jp nnn) s = .next { s with pc := zext16 nnn }

/-- R121, R200: the post-fetch `pc` is pushed, every other slot is unchanged, and control goes to `nnn`; with a full stack
`StackOverflow` reports the instruction's address, 2 below the post-fetch `pc` (the fault's information is the spec's own
decision D6, log 30). -/
def Obligations.CallPushesThePostFetchPc : Prop :=
  ∀ (nnn : Addr12) (s : State), decode (wordNNN 0x2 nnn) = .call nnn ∧
    (s.sp.val < 16 → ∃ t, exec (.call nnn) s = .next t ∧ t.pc = zext16 nnn ∧ t.sp.val = s.sp.val + 1 ∧
      (∀ i : Fin 16, t.stack[i] = if i.val = s.sp.val then s.pc else s.stack[i]) ∧
      t = { s with stack := t.stack, sp := t.sp, pc := t.pc } ∧ SameBytes s t) ∧
    (s.sp = 16 → exec (.call nnn) s = .fault (.stackOverflow (s.pc - 2)))

/-- R122, R201: `sp` is decremented and the slot then at `sp` is the new `pc`, bits 11:8 of the word notwithstanding (the
spec's D15, log 19); with an empty stack `StackUnderflow` reports the instruction's address (D6, log 30). -/
def Obligations.ReturnPopsTheStack : Prop :=
  ∀ (ign : Nibble) (s : State), decode (wordXKK 0x0 ign 0xEE) = .ret ign ∧
    (0 < s.sp.val → ∃ t, exec (.ret ign) s = .next t ∧ t.sp.val = s.sp.val - 1 ∧
      some t.pc = s.stack[s.sp.val - 1]? ∧ t = { s with sp := t.sp, pc := t.pc } ∧ SameBytes s t) ∧
    (s.sp = 0 → exec (.ret ign) s = .fault (.stackUnderflow (s.pc - 2)))

/-- R123: `nnn + V[0]` as numbers, never masked to 12 bits (the spec's D4, log 13). -/
def Obligations.JumpOffsetAddsV0 : Prop :=
  ∀ (nnn : Addr12) (s : State), decode (wordNNN 0xB nnn) = .jpV0 nnn ∧
    ∃ t, exec (.jpV0 nnn) s = .next t ∧ t.pc.toNat = nnn.toNat + (s.reg 0).toNat ∧ t = { s with pc := t.pc } ∧
      SameBytes s t

/-- R124, R125. -/
def Obligations.ImmediateSkips : Prop :=
  ∀ (x : Nibble) (kk : Byte) (s : State),
    decode (wordXKK 0x3 x kk) = .seImm x kk ∧ decode (wordXKK 0x4 x kk) = .sneImm x kk ∧
    exec (.seImm x kk) s = .next { s with pc := if s.reg x = kk then s.pc + 2 else s.pc } ∧
    exec (.sneImm x kk) s = .next { s with pc := if s.reg x ≠ kk then s.pc + 2 else s.pc }

/-- R126, R127. -/
def Obligations.RegisterSkips : Prop :=
  ∀ (x y : Nibble) (s : State),
    decode (wordXYN 0x5 x y 0x0) = .seReg x y ∧ decode (wordXYN 0x9 x y 0x0) = .sneReg x y ∧
    exec (.seReg x y) s = .next { s with pc := if s.reg x = s.reg y then s.pc + 2 else s.pc } ∧
    exec (.sneReg x y) s = .next { s with pc := if s.reg x ≠ s.reg y then s.pc + 2 else s.pc }

/-- R121, R122 (the source's round trip, S4): a call whose target holds a `RET` comes back, in two steps, to the word after
it, with `sp`, the registers, memory and all else but the slot above the top as before. Bits 11:8 of the `RET` are ignored:
the spec's D15 (log 19). The schedule is the model's own (log 7). -/
def Obligations.CallThenReturnRoundTrips : Prop :=
  ∀ (s : State) (nnn : Addr12) (ign : Nibble), s.schedule = [] → s.pc.toNat < 0xFFF → nnn.toNat < 0xFFF →
    s.sp.val < 16 → s.readWord s.pc.toNat = wordNNN 0x2 nnn → s.readWord nnn.toNat = wordXKK 0x0 ign 0xEE →
    ∃ t u, step s = .next t ∧ step t = .next u ∧ t.pc = zext16 nnn ∧ u.pc = s.pc + 2 ∧ u.sp = s.sp ∧
      (∀ i : Fin 16, i.val ≠ s.sp.val → u.stack[i] = s.stack[i]) ∧
      u = { s with pc := u.pc, stack := u.stack, rndInput := none, justReset := false }

/-- R120, R248 (S10): a machine that rests at `a`, with no host event scheduled, stays there for any number of `CYCLE`s,
every element of the state as it was (`justReset` and `rndInput` are the model's own). The premise is that of the model's
schedule (log 7, DESIGN CHOICE, unsafe for unbounded runs): a `TICK` of the host still counts the timers down at rest
(R248), and of runs with host events this says nothing. -/
def Obligations.SelfJumpRests : Prop :=
  ∀ (s : State) (a : Addr12) (k : Nat), s.schedule = [] → s.restsAt a →
    ∃ t, Host.Core.run Sys2Proof.core k s = .next t ∧
      t = { s with justReset := t.justReset, rndInput := t.rndInput }

/-! ### Register file and ALU (41_alu.md) -/

/-- R130, R132. -/
def Obligations.LoadsIntoARegister : Prop :=
  ∀ (x y : Nibble) (kk : Byte) (s : State),
    decode (wordXKK 0x6 x kk) = .ldImm x kk ∧ decode (wordXYN 0x8 x y 0x0) = .ldReg x y ∧
    (∃ t, exec (.ldImm x kk) s = .next t ∧ WritesRegister s t x kk) ∧
    (∃ t, exec (.ldReg x y) s = .next t ∧ WritesRegister s t x (s.reg y))

/-- R131: the sum modulo 256, for every register, and no flag. -/
def Obligations.AddImmediateSetsNoFlag : Prop :=
  ∀ (x : Nibble) (kk : Byte) (s : State), decode (wordXKK 0x7 x kk) = .addImm x kk ∧
    ∃ t, exec (.addImm x kk) s = .next t ∧
      WritesRegister s t x (BitVec.ofNat 8 (((s.reg x).toNat + kk.toNat) % 256))

/-- R133 to R135: the bitwise result, and `VF` 0; with `x = 15` the flag wins (the spec's D12, log 16). -/
def Obligations.LogicalOperationsClearVf : Prop :=
  ∀ (x y : Nibble) (s : State),
    decode (wordXYN 0x8 x y 0x1) = .orReg x y ∧ decode (wordXYN 0x8 x y 0x2) = .andReg x y ∧
    decode (wordXYN 0x8 x y 0x3) = .xorReg x y ∧
    (∃ t, exec (.orReg x y) s = .next t ∧
      WritesResultAndFlag s t x ((s.reg x).toNat ||| (s.reg y).toNat) 0) ∧
    (∃ t, exec (.andReg x y) s = .next t ∧
      WritesResultAndFlag s t x ((s.reg x).toNat &&& (s.reg y).toNat) 0) ∧
    (∃ t, exec (.xorReg x y) s = .next t ∧
      WritesResultAndFlag s t x ((s.reg x).toNat ^^^ (s.reg y).toNat) 0)

/-- R136 (S2): the sum modulo 256, and `VF` 1 iff the sum is above 255; with `x = 15` the flag wins (D12, log 16). -/
def Obligations.AddSetsTheCarry : Prop :=
  ∀ (x y : Nibble) (s : State), decode (wordXYN 0x8 x y 0x4) = .addReg x y ∧
    ∃ t, exec (.addReg x y) s = .next t ∧
      WritesResultAndFlag s t x (((s.reg x).toNat + (s.reg y).toNat) % 256)
        (if (s.reg x).toNat + (s.reg y).toNat > 255 then 1 else 0)

/-- R137, R139 (S3): the difference modulo 256, and `VF` 1 iff there was no borrow; with `x = 15` the flag wins (D12,
log 16). -/
def Obligations.SubtractionsSetNoBorrow : Prop :=
  ∀ (x y : Nibble) (s : State),
    decode (wordXYN 0x8 x y 0x5) = .subReg x y ∧ decode (wordXYN 0x8 x y 0x7) = .subnReg x y ∧
    (∃ t, exec (.subReg x y) s = .next t ∧
      WritesResultAndFlag s t x (((s.reg x).toNat + 256 - (s.reg y).toNat) % 256)
        (if (s.reg x).toNat ≥ (s.reg y).toNat then 1 else 0)) ∧
    (∃ t, exec (.subnReg x y) s = .next t ∧
      WritesResultAndFlag s t x (((s.reg y).toNat + 256 - (s.reg x).toNat) % 256)
        (if (s.reg y).toNat ≥ (s.reg x).toNat then 1 else 0))

/-- R138, R140: the shift takes `Vy`, and `VF` is the bit shifted out; with `x = 15` the flag wins (D12, log 16). -/
def Obligations.ShiftsTakeVy : Prop :=
  ∀ (x y : Nibble) (s : State),
    decode (wordXYN 0x8 x y 0x6) = .shrReg x y ∧ decode (wordXYN 0x8 x y 0xE) = .shlReg x y ∧
    (∃ t, exec (.shrReg x y) s = .next t ∧
      WritesResultAndFlag s t x ((s.reg y).toNat / 2) ((s.reg y).toNat % 2)) ∧
    (∃ t, exec (.shlReg x y) s = .next t ∧
      WritesResultAndFlag s t x ((s.reg y).toNat * 2 % 256) ((s.reg y).toNat / 128))

/-- R141: `V[x]` is the random byte and `kk`: the byte an event supplied, or a free value, whatever it is (log 1). A free
draw is consumed by `Cxkk` alone. -/
def Obligations.RandomByteIsMasked : Prop :=
  (∀ (x : Nibble) (kk : Byte) (s : State), decode (wordXKK 0xC x kk) = .rnd x kk ∧
    (∀ d : Draw, s.rndInput = some d → ∃ t, exec (.rnd x kk) s = .next t ∧
      WritesRegister s t x (BitVec.ofNat 8 d.val &&& kk)) ∧
    (s.rndInput = none → ∃ t, exec (.rnd x kk) s = .next t ∧
      WritesRegister { s with rndCount := s.rndCount + 1 } t x
        (BitVec.ofNat 8 (Config.rndDraw s.rndCount).val &&& kk))) ∧
  (∀ (i : Instr) (s t : State), exec i s = .next t → (∀ x kk, i ≠ .rnd x kk) → t.rndCount = s.rndCount)

/-! ### Index register and memory (42_index_memory.md) -/

/-- R150, R151: the 12-bit value zero-extended; the sum modulo 2^16, without a flag. -/
def Obligations.IndexIsLoadedAndAddedTo : Prop :=
  ∀ (x : Nibble) (nnn : Addr12) (s : State),
    decode (wordNNN 0xA nnn) = .ldI nnn ∧ decode (wordXKK 0xF x 0x1E) = .addI x ∧
    exec (.ldI nnn) s = .next { s with index := zext16 nnn } ∧
    exec (.addI x) s = .next { s with index := BitVec.ofNat 16 ((s.index.toNat + (s.reg x).toNat) % 65536) }

/-- R152: five times the whole 8-bit value (the spec's D10, log 14). -/
def Obligations.GlyphAddressIsFiveTimesVx : Prop :=
  ∀ (x : Nibble) (s : State), decode (wordXKK 0xF x 0x29) = .ldF x ∧
    exec (.ldF x) s = .next { s with index := BitVec.ofNat 16 (5 * (s.reg x).toNat) }

/-- R153: hundreds, tens and units at `index`, `index + 1`, `index + 2`, every other byte and all else as before. -/
def Obligations.BcdStoresThreeDigits : Prop :=
  ∀ (x : Nibble) (s : State), decode (wordXKK 0xF x 0x33) = .ldB x ∧
    (s.base + 2 ≤ 0xFFF → ∃ t, exec (.ldB x) s = .next t ∧
      (t.readByte s.base).toNat = (s.reg x).toNat / 100 ∧
      (t.readByte (s.base + 1)).toNat = (s.reg x).toNat / 10 % 10 ∧
      (t.readByte (s.base + 2)).toNat = (s.reg x).toNat % 10 ∧
      (∀ a, a < s.base ∨ s.base + 2 < a → t.readByte a = s.readByte a) ∧
      t = { s with memory := t.memory })

/-- R154: `V[i]` at `index + i` for `i` up to `x`, every other byte as before, and `index` moved past them. -/
def Obligations.StoreWritesTheRegisterRange : Prop :=
  ∀ (x : Nibble) (s : State), decode (wordXKK 0xF x 0x55) = .storeRegs x ∧
    (s.base + x.toNat ≤ 0xFFF → ∃ t, exec (.storeRegs x) s = .next t ∧
      (∀ i : Nibble, i.toNat ≤ x.toNat → t.readByte (s.base + i.toNat) = s.reg i) ∧
      (∀ a, a < s.base ∨ s.base + x.toNat < a → t.readByte a = s.readByte a) ∧
      t.index.toNat = (s.index.toNat + x.toNat + 1) % 65536 ∧
      t = { s with memory := t.memory, index := t.index })

/-- R155: `V[i]` from `index + i` for `i` up to `x`, every other register and memory as before, and `index` moved past. -/
def Obligations.LoadReadsTheRegisterRange : Prop :=
  ∀ (x : Nibble) (s : State), decode (wordXKK 0xF x 0x65) = .loadRegs x ∧
    (s.base + x.toNat ≤ 0xFFF → ∃ t, exec (.loadRegs x) s = .next t ∧
      (∀ i : Nibble, t.reg i = if i.toNat ≤ x.toNat then s.readByte (s.base + i.toNat) else s.reg i) ∧
      t.index.toNat = (s.index.toNat + x.toNat + 1) % 65536 ∧
      t = { s with v := t.v, index := t.index } ∧ SameBytes s t)

/-- R69, R202: an instruction whose range leaves memory reports the highest address of it, as an integer never wrapped
(the spec's D2, D13, D20; log 11). -/
def Obligations.RangeFaultsBeforeAnyEffect : Prop :=
  ∀ (x y n : Nibble) (s : State),
    (0xFFF < s.index.toNat + 2 → exec (.ldB x) s = .fault (.addressOutOfRange (s.index.toNat + 2))) ∧
    (0xFFF < s.index.toNat + x.toNat →
      exec (.storeRegs x) s = .fault (.addressOutOfRange (s.index.toNat + x.toNat)) ∧
      exec (.loadRegs x) s = .fault (.addressOutOfRange (s.index.toNat + x.toNat))) ∧
    (s.displayReady = false → 0 < n.toNat → 0xFFF < s.index.toNat + n.toNat - 1 →
      exec (.drw x y n) s = .fault (.addressOutOfRange (s.index.toNat + n.toNat - 1)))

/-- R72, R64: a store over the next word is seen by the very next fetch, the byte of the lower register being the high
byte. -/
def Obligations.StoreIsSeenByTheNextFetch : Prop :=
  ∀ (s : State) (x : Nibble), s.schedule = [] → s.pc.toNat < 0xFFD → 1 ≤ x.toNat → s.index = s.pc + 2 →
    s.index.toNat + x.toNat ≤ 0xFFF → s.readWord s.pc.toNat = wordXKK 0xF x 0x55 →
    ∃ t, step s = .next t ∧ t.pc = s.pc + 2 ∧ fetch t = .ok (decode (s.reg 0 ++ s.reg 1))

/-! ### Display (43_display.md) -/

/-- R160: every pixel is off and nothing else changes, the latch and `VF` included (the spec's D14, log 18). That the word
is a clear for every value of its ignored bits 11:8 is the spec's own decision D15 (log 19). -/
def Obligations.ClearTurnsEveryPixelOff : Prop :=
  ∀ (ign : Nibble) (s : State), decode (wordXKK 0x0 ign 0xE0) = .cls ign ∧
    ∃ t, exec (.cls ign) s = .next t ∧ (∀ r c, t.pixel r c = 0) ∧ t = { s with display := t.display } ∧ SameBytes s t

/-- R161 (S6): while `displayReady` is set a draw stalls, whatever its operands: `pc` goes back to it and nothing else
changes. That the stall precedes the range check is the spec's own decision D13 (log 17). -/
def Obligations.DrawStallsWhileTheFrameWaits : Prop :=
  ∀ (x y n : Nibble) (s : State), decode (wordXYN 0xD x y n) = .drw x y n ∧
    (s.displayReady = true → exec (.drw x y n) s = .next { s with pc := s.pc - 2 })

/-- R161: a draw that neither stalls nor faults toggles exactly the pixels inside the display that a 1-bit of the sprite
covers, sets `VF` to 1 iff one of them was on and to 0 otherwise, and sets `displayReady`; every other register and all
else is as before. The loops of the model in closed form. -/
def Obligations.DrawTogglesTheSpriteBits : Prop :=
  ∀ (x y n : Nibble) (s : State), s.displayReady = false → (0 < n.toNat → s.base + n.toNat - 1 ≤ 0xFFF) →
    ∃ t, exec (.drw x y n) s = .next t ∧
      (∀ r c, r < 32 → c < 64 → t.pixel r c =
        if covers s ((s.reg x).toNat % 64) ((s.reg y).toNat % 32) n.toNat r c
        then s.pixel r c ^^^ 0xFFFFFFFF else s.pixel r c) ∧
      (t.vf = 0 ∨ t.vf = 1) ∧
      (t.vf = 1 ↔ ∃ r c, r < 32 ∧ c < 64 ∧
        covers s ((s.reg x).toNat % 64) ((s.reg y).toNat % 32) n.toNat r c = true ∧ s.pixel r c = 0xFFFFFFFF) ∧
      (∀ i, i ≠ 0xF → t.reg i = s.reg i) ∧
      t = { s with v := t.v, display := t.display, displayReady := true } ∧ SameBytes s t

/-- R163 (S5): drawing the same sprite at the same place again, with the frame consumed between, restores every pixel, and
the second draw collides iff the sprite covers a pixel that was off before the first. -/
def Obligations.DrawingTwiceRestoresThePixels : Prop :=
  ∀ (x y n : Nibble) (s t u : State), s.displayReady = false → exec (.drw x y n) s = .next t →
    exec (.drw x y n) { t with displayReady := false } = .next u →
    (t.reg x).toNat % 64 = (s.reg x).toNat % 64 → (t.reg y).toNat % 32 = (s.reg y).toNat % 32 →
    (∀ r c, u.pixel r c = s.pixel r c) ∧
    (u.vf = 1 ↔ ∃ r c, r < 32 ∧ c < 64 ∧
      covers s ((s.reg x).toNat % 64) ((s.reg y).toNat % 32) n.toNat r c = true ∧ s.pixel r c = 0)

/-- R164, R252: once a frame waits, no session without a `CONSUME_FRAME` or a `RESET` draws: the latch stays set, and the
pixels stay as they were or have been cleared by `00E0`. That `00E0` leaves the latch is the spec's own decision D14
(log 18). -/
def Obligations.OnlyConsumeFrameLetsADrawPass : Prop :=
  ∀ (es : List Event) (s : State), s.displayReady = true → (∀ e ∈ es, e ≠ .consumeFrame ∧ e ≠ .reset) →
    (session es s).1.displayReady = true ∧
    ((session es s).1.display = s.display ∨ ∀ r c, (session es s).1.pixel r c = 0)

/-! ### Keypad and timers (44_keypad_timers.md) -/

/-- R170, R171, R176: a key number above 15 reads as not held (the spec's D11, log 15). -/
def Obligations.KeySkipsTestTheMask : Prop :=
  ∀ (x : Nibble) (s : State), decode (wordXKK 0xE x 0x9E) = .skp x ∧ decode (wordXKK 0xE x 0xA1) = .sknp x ∧
    exec (.skp x) s = .next
      { s with pc := if (s.reg x).toNat ≤ 15 ∧ s.keypadMask.getLsbD (s.reg x).toNat = true then s.pc + 2 else s.pc } ∧
    exec (.sknp x) s = .next
      { s with pc := if (s.reg x).toNat ≤ 15 ∧ s.keypadMask.getLsbD (s.reg x).toNat = true then s.pc else s.pc + 2 }

/-- R172: phase 1 notes the least held key, if any, and stalls in either case; phase 2 stalls while that key is held, and
once it is released writes its number to `V[x]`, forgets it, and lets `pc` advance. No other instruction, and no event but
`CYCLE` and `RESET`, changes `keyAwaited`: the spec's own decision D23 (R30; log 22). -/
def Obligations.KeyWaitTakesAPressAndARelease : Prop :=
  (∀ (x : Nibble) (s : State), decode (wordXKK 0xF x 0x0A) = .ldVxK x ∧
    (s.keyAwaited = none → ∃ t, exec (.ldVxK x) s = .next t ∧ (s.keypadMask = 0 → t.keyAwaited = none) ∧
      (s.keypadMask ≠ 0 → ∃ k : Nibble, t.keyAwaited = some k ∧ s.keypadMask.getLsbD k.toNat = true ∧
        ∀ j, j < k.toNat → s.keypadMask.getLsbD j = false) ∧
      t = { s with keyAwaited := t.keyAwaited, pc := s.pc - 2 } ∧ SameBytes s t) ∧
    (∀ k : Nibble, s.keyAwaited = some k →
      (s.keypadMask.getLsbD k.toNat = true → exec (.ldVxK x) s = .next { s with pc := s.pc - 2 }) ∧
      (s.keypadMask.getLsbD k.toNat = false → ∃ t, exec (.ldVxK x) s = .next t ∧
        WritesRegister { s with keyAwaited := none } t x (zext8 k)))) ∧
  (∀ (i : Instr) (s t : State), exec i s = .next t → (∀ x, i ≠ .ldVxK x) → t.keyAwaited = s.keyAwaited) ∧
  (∀ (e : Event) (s t : State), issue e s = .next t → (∀ d, e ≠ .cycle d) → e ≠ .reset → t.keyAwaited = s.keyAwaited)

/-- R173 to R175: the delay timer is read and set, the sound timer is set, and the tone follows its new value. -/
def Obligations.TimersAreReadAndSet : Prop :=
  ∀ (x : Nibble) (s : State), decode (wordXKK 0xF x 0x07) = .ldVxDt x ∧ decode (wordXKK 0xF x 0x15) = .ldDtVx x ∧
    decode (wordXKK 0xF x 0x18) = .ldStVx x ∧
    (∃ t, exec (.ldVxDt x) s = .next t ∧ WritesRegister s t x s.delayTimer) ∧
    exec (.ldDtVx x) s = .next { s with delayTimer := s.reg x } ∧
    (∃ t, exec (.ldStVx x) s = .next t ∧ t = { s with soundTimer := s.reg x } ∧ (t.tone = true ↔ s.reg x ≠ 0))

/-- R26, R27: no instruction but `Fx15` changes `delayTimer`, none but `Fx18` changes `soundTimer`, and the tone is on
exactly while `soundTimer` is above 0. -/
def Obligations.TimersChangeOnlyByTheirInstructions : Prop :=
  (∀ (i : Instr) (s t : State), exec i s = .next t →
    ((∀ x, i ≠ .ldDtVx x) → t.delayTimer = s.delayTimer) ∧ ((∀ x, i ≠ .ldStVx x) → t.soundTimer = s.soundTimer)) ∧
  (∀ s : State, s.tone = true ↔ s.soundTimer ≠ 0)

/-- R27: no instruction reads `soundTimer`: from states that differ in it alone an instruction gives the same outcome, and
next states that differ in it alone: not even in it after `Fx18`, and by the same values as before after any other. -/
def Obligations.NoInstructionReadsTheSoundTimer : Prop :=
  ∀ (i : Instr) (s : State) (b : Byte),
    match exec i s with
    | .next t => ∃ u, exec i { s with soundTimer := b } = .next u ∧ u = { t with soundTimer := u.soundTimer } ∧
        ((∃ x, i = .ldStVx x) → u.soundTimer = t.soundTimer) ∧ ((∀ x, i ≠ .ldStVx x) → u.soundTimer = b)
    | .fault f => exec i { s with soundTimer := b } = .fault f
    | .refused r => exec i { s with soundTimer := b } = .refused r

/-! ### No-ops (45_noop.md) -/

/-- R180: a word that selects no defined row takes a step that advances `pc` by 2 and changes nothing else (`rndInput` and
`justReset` are the model's own). -/
def Obligations.UnmatchedWordsOnlyAdvancePc : Prop :=
  ∀ s : State, s.schedule = [] → s.pc.toNat < 0xFFF →
    (∀ r ∈ definedRows, r.selects (s.readWord s.pc.toNat) = false) →
    step s = .next { s with pc := s.pc + 2, rndInput := none, justReset := false }

/-- R181 to R186: the words of each no-op row decode to its instruction, and that leaves the state as the fetch advance
made it. Which words of class 0 these are follows the spec's own decision D15 (log 19). -/
def Obligations.NoopRowsCompleteUnchanged : Prop :=
  ∀ (bits : Addr12) (s : State),
    (lowKk bits ≠ 0xE0 → lowKk bits ≠ 0xEE → decode (wordNNN 0x0 bits) = .nop0 bits) ∧
    (lowN bits ≠ 0 → decode (wordNNN 0x5 bits) = .nop5 bits) ∧
    (lowN bits ∈ [0x8, 0x9, 0xA, 0xB, 0xC, 0xD, 0xF] → decode (wordNNN 0x8 bits) = .nop8 bits) ∧
    (lowN bits ≠ 0 → decode (wordNNN 0x9 bits) = .nop9 bits) ∧
    (lowKk bits ≠ 0x9E → lowKk bits ≠ 0xA1 → decode (wordNNN 0xE bits) = .nopE bits) ∧
    (lowKk bits ∉ [0x07, 0x0A, 0x15, 0x18, 0x1E, 0x29, 0x33, 0x55, 0x65] → decode (wordNNN 0xF bits) = .nopF bits) ∧
    exec (.nop0 bits) s = .next s ∧ exec (.nop5 bits) s = .next s ∧ exec (.nop8 bits) s = .next s ∧
    exec (.nop9 bits) s = .next s ∧ exec (.nopE bits) s = .next s ∧ exec (.nopF bits) s = .next s

/-! ### The whole machine -/

/-- Every step keeps memory in its canonical form, so that equal memories are equal data. The form is the model's own (log
4, DESIGN CHOICE): strictly rising addresses, and no byte listed that reads the same unlisted; that the addresses lie below
4096 is R32 and R60. -/
def Obligations.StepKeepsMemoryCanonical : Prop :=
  ∀ s t : State, MemoryCanonical s → step s = .next t → MemoryCanonical t

/-- R35 (ii), R28: every step keeps every display word all-0 or all-1. -/
def Obligations.StepKeepsPixelsTwoValued : Prop :=
  ∀ s t : State, PixelsTwoValued s → step s = .next t → PixelsTwoValued t

/-- R23: every step keeps `pc` at or below `0x10FE` and every stack slot, occupied or not, at or below `0x1000`. Through
`RESET` the bound of the slots rests on the zeros the model gives them there, which the spec leaves unspecified (R39;
log 6, DESIGN CHOICE). That nothing masks `pc` is the spec's D4 (log 13). -/
def Obligations.StepKeepsPcBounded : Prop :=
  ∀ s t : State, PcBounded s → step s = .next t → PcBounded t

/-- R30 and the spec's own decision D23 (log 22): while a key is awaited, the word at `pc` is the `Fx0A` that waits for
it, whatever events come between. That no `LOAD` comes between is D16 (log 8). -/
def Obligations.StepKeepsTheKeyWaitAtPc : Prop :=
  ∀ s t : State, KeyWaitAtPc s → step s = .next t → KeyWaitAtPc t

/-- R35, R23, D23: the invariants hold after `RESET`. The canonical form of memory is the model's own (log 4, DESIGN
CHOICE). The bound of the stack slots rests on the zeros the model gives them
at reset, which the spec leaves unspecified (R39; log 6, DESIGN CHOICE); the pixels' zeros and `keyAwaited` are the spec's
own decision D8 (log 5). -/
def Obligations.InvariantsHoldAtReset : Prop :=
  MemoryCanonical State.reset ∧ PixelsTwoValued State.reset ∧ PcBounded State.reset ∧ KeyWaitAtPc State.reset

/-- R202, R205, R207, R97: with no event scheduled (the schedule is the model's own, log 7), a step faults exactly as the
table of faults says, and is never refused: every word runs. The rows of `AddressOutOfRange` are the spec's own decisions
D2 and D20 (log 11), that of the draw D13 (log 17), and the information every fault carries is D6 (log 30). -/
def Obligations.CycleFaultsExactlyAsListed : Prop :=
  ∀ s : State, s.schedule = [] → (∀ f, step s = .fault f ↔ CycleFaults s f) ∧ ∀ r, step s ≠ .refused r

/-- R204: once a `CYCLE` faults, every further `CYCLE` of a session without `RESET` and `LOAD` reports the same fault,
whatever host events come between. It rests on the spec's own decisions that a fault keeps the whole state, D5, and is not
remembered by the machine, D7 (log 10). -/
def Obligations.AFaultLastsUntilReset : Prop :=
  ∀ (s : State) (rnd : Option Draw) (f : Fault) (es : List Event), cycle rnd s = .fault f →
    (∀ e ∈ es, running e = true) → (session es s).2 = (es.filter isCycle).map (fun _ => Report.fault f)

/-- R22, R34: an instruction changes no general register but those the access matrix lets it write; so `VF` changes as a
side effect of the listed instructions only. -/
def Obligations.OnlyTheNamedRegistersChange : Prop :=
  ∀ (i : Instr) (s t : State) (r : Nibble), exec i s = .next t → mayWrite i r = false → t.reg r = s.reg r

/-- R34, R70: a byte of memory changes only by `Fx33` or `Fx55`, and only inside the range that instruction stores to. -/
def Obligations.OnlyStoresChangeMemory : Prop :=
  ∀ (i : Instr) (s t : State) (a : Nat), exec i s = .next t → ¬ storesTo s i a → t.readByte a = s.readByte a

/-- R20, R29, R31, R34: which instruction writes which of the other elements (`keyAwaited`: with R172). That `00E0` does not
write `displayReady` is the spec's own decision D14 (log 18). -/
def Obligations.OnlyTheListedInstructionsWrite : Prop :=
  ∀ (i : Instr) (s t : State), exec i s = .next t →
    t.keypadMask = s.keypadMask ∧
    ((∀ x y n, i ≠ .drw x y n) → t.displayReady = s.displayReady) ∧
    ((∀ x y n, i ≠ .drw x y n) → (∀ g, i ≠ .cls g) → t.display = s.display) ∧
    ((∀ nnn, i ≠ .call nnn) → t.stack = s.stack) ∧
    ((∀ nnn, i ≠ .call nnn) → (∀ g, i ≠ .ret g) → t.sp = s.sp) ∧
    (mayWriteIndex i = false → t.index = s.index) ∧
    (mayWritePc i = false → t.pc = s.pc)

/-- R37: a `CYCLE` in each stalled sub-state. In `DrawStall` nothing changes; in phase 1 nothing but `keyAwaited`, which
is set iff a key is held; in phase 2 nothing while the awaited key is held, and otherwise its number is written and `pc`
moves on (`rndInput` and `justReset` are the model's own). -/
def Obligations.SubstatesStallAsStated : Prop :=
  ∀ (s : State) (rnd : Option Draw), s.pc.toNat < 0xFFF →
    (s.substate = .drawStall → cycle rnd s = .next { s with rndInput := rnd, justReset := false }) ∧
    (s.substate = .keyWaitPhase1 → ∃ t, cycle rnd s = .next t ∧ (t.keyAwaited = none ↔ s.keypadMask = 0) ∧
      t = { s with keyAwaited := t.keyAwaited, rndInput := rnd, justReset := false }) ∧
    (∀ k, s.substate = .keyWaitPhase2 k →
      (s.keypadMask.getLsbD k.toNat = true → cycle rnd s = .next { s with rndInput := rnd, justReset := false }) ∧
      (s.keypadMask.getLsbD k.toNat = false → ∃ t x, cycle rnd s = .next t ∧
        decode (s.readWord s.pc.toNat) = .ldVxK x ∧
        WritesRegister { s with pc := s.pc + 2, keyAwaited := none, rndInput := rnd, justReset := false } t x
          (zext8 k)))
end

