-- ==== Sys2Proof/Laws/Decode.lean ====
section
/-!
SUPPORT. The fields of the word formats (spec 30_encoding.md R92), a word put together from its fields again, and
which words select a row of the opcode map: what the decoder's and the encoder's proofs rest on.
-/

namespace Sys2Proof

theorem getLsbD_wordNNN (c : Nibble) (nnn : Addr12) (i : Nat) :
    (wordNNN c nnn).getLsbD i = if i < 12 then nnn.getLsbD i else c.getLsbD (i - 12) :=
  BitVec.getLsbD_append

theorem getLsbD_wordXKK (c x : Nibble) (kk : Byte) (i : Nat) :
    (wordXKK c x kk).getLsbD i =
      if i < 8 then kk.getLsbD i else if i < 12 then x.getLsbD (i - 8) else c.getLsbD (i - 12) := by
  refine (BitVec.getLsbD_append (x := c ++ x) (y := kk)).trans ?_
  split
  · rfl
  · refine (BitVec.getLsbD_append (x := c) (y := x)).trans ?_
    simp only [Nat.sub_sub]
    split <;> split <;> first | rfl | omega

theorem getLsbD_wordXYN (c x y n : Nibble) (i : Nat) :
    (wordXYN c x y n).getLsbD i =
      if i < 4 then n.getLsbD i else if i < 8 then y.getLsbD (i - 4)
      else if i < 12 then x.getLsbD (i - 8) else c.getLsbD (i - 12) := by
  refine (BitVec.getLsbD_append (x := c ++ x ++ y) (y := n)).trans ?_
  split
  · rfl
  · refine (BitVec.getLsbD_append (x := c ++ x) (y := y)).trans ?_
    split
    · rw [if_pos (by omega)]
    · rw [if_neg (by omega)]
      refine (BitVec.getLsbD_append (x := c) (y := x)).trans ?_
      simp only [Nat.sub_sub]
      split <;> split <;> first | rfl | omega

/-! The fields of each format. -/

@[simp] theorem opClass_wordNNN (c : Nibble) (nnn : Addr12) : opClass (wordNNN c nnn) = c := by
  ext i hi
  simp [opClass, getLsbD_wordNNN, BitVec.getLsbD_eq_getElem hi]

@[simp] theorem fieldNnn_wordNNN (c : Nibble) (nnn : Addr12) : fieldNnn (wordNNN c nnn) = nnn := by
  ext i hi
  simp [fieldNnn, getLsbD_wordNNN, hi]

@[simp] theorem opClass_wordXKK (c x : Nibble) (kk : Byte) : opClass (wordXKK c x kk) = c := by
  ext i hi
  simp [opClass, getLsbD_wordXKK, BitVec.getLsbD_eq_getElem hi]
  omega

@[simp] theorem fieldX_wordXKK (c x : Nibble) (kk : Byte) : fieldX (wordXKK c x kk) = x := by
  ext i hi
  have : 8 + i < 12 := by omega
  simp [fieldX, getLsbD_wordXKK, this, BitVec.getLsbD_eq_getElem hi]

@[simp] theorem fieldKk_wordXKK (c x : Nibble) (kk : Byte) : fieldKk (wordXKK c x kk) = kk := by
  ext i hi
  simp [fieldKk, getLsbD_wordXKK, hi]

@[simp] theorem opClass_wordXYN (c x y n : Nibble) : opClass (wordXYN c x y n) = c := by
  ext i hi
  have h1 : ¬ 12 + i < 4 := by omega
  have h2 : ¬ 12 + i < 8 := by omega
  simp [opClass, getLsbD_wordXYN, h1, h2, BitVec.getLsbD_eq_getElem hi]

@[simp] theorem fieldX_wordXYN (c x y n : Nibble) : fieldX (wordXYN c x y n) = x := by
  ext i hi
  have h1 : ¬ 8 + i < 4 := by omega
  have h2 : 8 + i < 12 := by omega
  simp [fieldX, getLsbD_wordXYN, h1, h2, BitVec.getLsbD_eq_getElem hi]

@[simp] theorem fieldY_wordXYN (c x y n : Nibble) : fieldY (wordXYN c x y n) = y := by
  ext i hi
  have h2 : 4 + i < 8 := by omega
  simp [fieldY, getLsbD_wordXYN, h2, BitVec.getLsbD_eq_getElem hi]

@[simp] theorem fieldN_wordXYN (c x y n : Nibble) : fieldN (wordXYN c x y n) = n := by
  ext i hi
  simp [fieldN, getLsbD_wordXYN, hi]

/-- The discriminant `kk` of a no-op row's word. -/
@[simp] theorem fieldKk_wordNNN (c : Nibble) (bits : Addr12) : fieldKk (wordNNN c bits) = lowKk bits := by
  ext i hi
  have h : i < 12 := by omega
  simp [fieldKk, lowKk, getLsbD_wordNNN, h]

/-- The discriminant `n` of a no-op row's word. -/
@[simp] theorem fieldN_wordNNN (c : Nibble) (bits : Addr12) : fieldN (wordNNN c bits) = lowN bits := by
  ext i hi
  have h : i < 12 := by omega
  simp [fieldN, lowN, getLsbD_wordNNN, h]

/-! A word from its fields. -/

theorem wordNNN_fields (w : Word) : wordNNN (opClass w) (fieldNnn w) = w := by
  refine BitVec.eq_of_getLsbD_eq fun i hi => ?_
  rw [getLsbD_wordNNN]
  split
  · next h => simp [fieldNnn, h]
  · next h =>
    have h1 : i - 12 < 4 := by omega
    have h2 : 12 + (i - 12) = i := by omega
    simp [opClass, h1, h2]

theorem wordXKK_fields (w : Word) : wordXKK (opClass w) (fieldX w) (fieldKk w) = w := by
  refine BitVec.eq_of_getLsbD_eq fun i hi => ?_
  rw [getLsbD_wordXKK]
  split
  · next h => simp [fieldKk, h]
  · split
    · next h1 h2 =>
      have h3 : i - 8 < 4 := by omega
      have h4 : 8 + (i - 8) = i := by omega
      simp [fieldX, h3, h4]
    · next h1 h2 =>
      have h3 : i - 12 < 4 := by omega
      have h4 : 12 + (i - 12) = i := by omega
      simp [opClass, h3, h4]

theorem wordXYN_fields (w : Word) : wordXYN (opClass w) (fieldX w) (fieldY w) (fieldN w) = w := by
  refine BitVec.eq_of_getLsbD_eq fun i hi => ?_
  rw [getLsbD_wordXYN]
  split
  · next h => simp [fieldN, h]
  · split
    · next h1 h2 =>
      have h3 : i - 4 < 4 := by omega
      have h4 : 4 + (i - 4) = i := by omega
      simp [fieldY, h3, h4]
    · split
      · next h1 h2 h5 =>
        have h3 : i - 8 < 4 := by omega
        have h4 : 8 + (i - 8) = i := by omega
        simp [fieldX, h3, h4]
      · next h1 h2 h5 =>
        have h3 : i - 12 < 4 := by omega
        have h4 : 12 + (i - 12) = i := by omega
        simp [opClass, h3, h4]

/-- The discriminant `kk` inside `nnn`. -/
theorem lowKk_fieldNnn (w : Word) : lowKk (fieldNnn w) = fieldKk w := by
  ext i hi
  simp [lowKk, fieldNnn, fieldKk]

/-- The discriminant `n` inside `nnn`. -/
theorem lowN_fieldNnn (w : Word) : lowN (fieldNnn w) = fieldN w := by
  ext i hi
  simp [lowN, fieldNnn, fieldN]

/-- The two bytes of a word, high byte first, are the word again (R63). -/
theorem wordBytes_append (w : Word) : (w.extractLsb' 8 8 ++ w.extractLsb' 0 8 : BitVec (8 + 8)) = w := by
  refine BitVec.eq_of_getLsbD_eq fun i hi => ?_
  rw [BitVec.getLsbD_append]
  split
  · next h => simp [h]
  · next h =>
    have h3 : i - 8 < 8 := by omega
    have h4 : 8 + (i - 8) = i := by omega
    simp [h3, h4]

/-! Rows of the opcode map (R96): a row is met by a word of its class and its discriminant. -/

/-- A nibble is one of sixteen: the case split over the primary opcode classes (R95). -/
theorem nibble_cases (c : Nibble) :
    c = 0x0 ∨ c = 0x1 ∨ c = 0x2 ∨ c = 0x3 ∨ c = 0x4 ∨ c = 0x5 ∨ c = 0x6 ∨ c = 0x7 ∨ c = 0x8 ∨ c = 0x9 ∨ c = 0xA ∨
      c = 0xB ∨ c = 0xC ∨ c = 0xD ∨ c = 0xE ∨ c = 0xF := by
  rcases c with ⟨⟨n, h⟩⟩
  interval_cases n <;> simp +decide

theorem and_F000 (w : Word) : w &&& 0xF000 = wordNNN (opClass w) 0 := by
  refine BitVec.eq_of_getLsbD_eq fun i hi => ?_
  rw [getLsbD_wordNNN, BitVec.getLsbD_and]
  interval_cases i <;> simp [opClass]

theorem and_F00F (w : Word) : w &&& 0xF00F = wordXYN (opClass w) 0 0 (fieldN w) := by
  refine BitVec.eq_of_getLsbD_eq fun i hi => ?_
  rw [getLsbD_wordXYN, BitVec.getLsbD_and]
  interval_cases i <;> simp [opClass, fieldN]

theorem and_F0FF (w : Word) : w &&& 0xF0FF = wordXKK (opClass w) 0 (fieldKk w) := by
  refine BitVec.eq_of_getLsbD_eq fun i hi => ?_
  rw [getLsbD_wordXKK, BitVec.getLsbD_and]
  interval_cases i <;> simp [opClass, fieldKk]

theorem wordNNN_inj {c c' : Nibble} {n n' : Addr12} : wordNNN c n = wordNNN c' n' ↔ c = c' ∧ n = n' := by
  constructor
  · intro h
    exact ⟨by simpa using congrArg opClass h, by simpa using congrArg fieldNnn h⟩
  · rintro ⟨rfl, rfl⟩
    rfl

theorem wordXYN_inj {c x y n c' x' y' n' : Nibble} :
    wordXYN c x y n = wordXYN c' x' y' n' ↔ c = c' ∧ x = x' ∧ y = y' ∧ n = n' := by
  constructor
  · intro h
    exact ⟨by simpa using congrArg opClass h, by simpa using congrArg fieldX h, by simpa using congrArg fieldY h,
      by simpa using congrArg fieldN h⟩
  · rintro ⟨rfl, rfl, rfl, rfl⟩
    rfl

theorem wordXKK_inj {c x c' x' : Nibble} {k k' : Byte} :
    wordXKK c x k = wordXKK c' x' k' ↔ c = c' ∧ x = x' ∧ k = k' := by
  constructor
  · intro h
    exact ⟨by simpa using congrArg opClass h, by simpa using congrArg fieldX h, by simpa using congrArg fieldKk h⟩
  · rintro ⟨rfl, rfl, rfl⟩
    rfl

theorem selects_F000 (w v : Word) :
    TableRow.selects ⟨v, 0xF000⟩ w = decide (fieldNnn v = 0 ∧ opClass w = opClass v) := by
  rw [TableRow.selects, and_F000, Bool.eq_iff_iff, beq_iff_eq, decide_eq_true_eq]
  conv_lhs => rw [← wordNNN_fields v, wordNNN_inj, eq_comm (a := (0 : Addr12))]
  exact and_comm

theorem selects_F00F (w v : Word) :
    TableRow.selects ⟨v, 0xF00F⟩ w =
      decide (fieldX v = 0 ∧ fieldY v = 0 ∧ opClass w = opClass v ∧ fieldN w = fieldN v) := by
  rw [TableRow.selects, and_F00F, Bool.eq_iff_iff, beq_iff_eq, decide_eq_true_eq]
  conv_lhs => rw [← wordXYN_fields v, wordXYN_inj]
  constructor <;> (intro h; tauto)

theorem selects_F0FF (w v : Word) :
    TableRow.selects ⟨v, 0xF0FF⟩ w =
      decide (fieldX v = 0 ∧ opClass w = opClass v ∧ fieldKk w = fieldKk v) := by
  rw [TableRow.selects, and_F0FF, Bool.eq_iff_iff, beq_iff_eq, decide_eq_true_eq]
  conv_lhs => rw [← wordXKK_fields v, wordXKK_inj]
  constructor <;> (intro h; tauto)

end Sys2Proof
end

