-- ==== Sys2Proof/Laws/State.lean ====
section
/-!
SUPPORT. One lemma per field and update of the state (each true by rfl), and the laws of the general registers, so that
no later proof unfolds a record update.
-/

namespace Sys2Proof.Machine

@[simp] theorem State.setReg_v (s : State) (i : Nibble) (b : Byte) :
    (s.setReg i b).v = s.v.set i.toNat b i.isLt := rfl
@[simp] theorem State.setReg_memory (s : State) (i : Nibble) (b : Byte) : (s.setReg i b).memory = s.memory := rfl
@[simp] theorem State.setReg_index (s : State) (i : Nibble) (b : Byte) : (s.setReg i b).index = s.index := rfl
@[simp] theorem State.setReg_pc (s : State) (i : Nibble) (b : Byte) : (s.setReg i b).pc = s.pc := rfl
@[simp] theorem State.setReg_stack (s : State) (i : Nibble) (b : Byte) : (s.setReg i b).stack = s.stack := rfl
@[simp] theorem State.setReg_sp (s : State) (i : Nibble) (b : Byte) : (s.setReg i b).sp = s.sp := rfl
@[simp] theorem State.setReg_delayTimer (s : State) (i : Nibble) (b : Byte) :
    (s.setReg i b).delayTimer = s.delayTimer := rfl
@[simp] theorem State.setReg_soundTimer (s : State) (i : Nibble) (b : Byte) :
    (s.setReg i b).soundTimer = s.soundTimer := rfl
@[simp] theorem State.setReg_display (s : State) (i : Nibble) (b : Byte) : (s.setReg i b).display = s.display := rfl
@[simp] theorem State.setReg_keypadMask (s : State) (i : Nibble) (b : Byte) :
    (s.setReg i b).keypadMask = s.keypadMask := rfl
@[simp] theorem State.setReg_keyAwaited (s : State) (i : Nibble) (b : Byte) :
    (s.setReg i b).keyAwaited = s.keyAwaited := rfl
@[simp] theorem State.setReg_displayReady (s : State) (i : Nibble) (b : Byte) :
    (s.setReg i b).displayReady = s.displayReady := rfl
@[simp] theorem State.setReg_justReset (s : State) (i : Nibble) (b : Byte) :
    (s.setReg i b).justReset = s.justReset := rfl
@[simp] theorem State.setReg_rndInput (s : State) (i : Nibble) (b : Byte) :
    (s.setReg i b).rndInput = s.rndInput := rfl
@[simp] theorem State.setReg_rndCount (s : State) (i : Nibble) (b : Byte) :
    (s.setReg i b).rndCount = s.rndCount := rfl
@[simp] theorem State.setReg_schedule (s : State) (i : Nibble) (b : Byte) :
    (s.setReg i b).schedule = s.schedule := rfl

@[simp] theorem State.setRegFlag_memory (s : State) (x : Nibble) (r f : Byte) :
    (s.setRegFlag x r f).memory = s.memory := rfl
@[simp] theorem State.setRegFlag_index (s : State) (x : Nibble) (r f : Byte) :
    (s.setRegFlag x r f).index = s.index := rfl
@[simp] theorem State.setRegFlag_pc (s : State) (x : Nibble) (r f : Byte) : (s.setRegFlag x r f).pc = s.pc := rfl
@[simp] theorem State.setRegFlag_stack (s : State) (x : Nibble) (r f : Byte) :
    (s.setRegFlag x r f).stack = s.stack := rfl
@[simp] theorem State.setRegFlag_sp (s : State) (x : Nibble) (r f : Byte) : (s.setRegFlag x r f).sp = s.sp := rfl
@[simp] theorem State.setRegFlag_delayTimer (s : State) (x : Nibble) (r f : Byte) :
    (s.setRegFlag x r f).delayTimer = s.delayTimer := rfl
@[simp] theorem State.setRegFlag_soundTimer (s : State) (x : Nibble) (r f : Byte) :
    (s.setRegFlag x r f).soundTimer = s.soundTimer := rfl
@[simp] theorem State.setRegFlag_display (s : State) (x : Nibble) (r f : Byte) :
    (s.setRegFlag x r f).display = s.display := rfl
@[simp] theorem State.setRegFlag_keypadMask (s : State) (x : Nibble) (r f : Byte) :
    (s.setRegFlag x r f).keypadMask = s.keypadMask := rfl
@[simp] theorem State.setRegFlag_keyAwaited (s : State) (x : Nibble) (r f : Byte) :
    (s.setRegFlag x r f).keyAwaited = s.keyAwaited := rfl
@[simp] theorem State.setRegFlag_displayReady (s : State) (x : Nibble) (r f : Byte) :
    (s.setRegFlag x r f).displayReady = s.displayReady := rfl
@[simp] theorem State.setRegFlag_justReset (s : State) (x : Nibble) (r f : Byte) :
    (s.setRegFlag x r f).justReset = s.justReset := rfl
@[simp] theorem State.setRegFlag_rndInput (s : State) (x : Nibble) (r f : Byte) :
    (s.setRegFlag x r f).rndInput = s.rndInput := rfl
@[simp] theorem State.setRegFlag_rndCount (s : State) (x : Nibble) (r f : Byte) :
    (s.setRegFlag x r f).rndCount = s.rndCount := rfl
@[simp] theorem State.setRegFlag_schedule (s : State) (x : Nibble) (r f : Byte) :
    (s.setRegFlag x r f).schedule = s.schedule := rfl

@[simp] theorem State.stall_v (s : State) : (s.stall).v = s.v := rfl
@[simp] theorem State.stall_memory (s : State) : (s.stall).memory = s.memory := rfl
@[simp] theorem State.stall_index (s : State) : (s.stall).index = s.index := rfl
@[simp] theorem State.stall_pc (s : State) : (s.stall).pc = s.pc - 2 := rfl
@[simp] theorem State.stall_stack (s : State) : (s.stall).stack = s.stack := rfl
@[simp] theorem State.stall_sp (s : State) : (s.stall).sp = s.sp := rfl
@[simp] theorem State.stall_delayTimer (s : State) : (s.stall).delayTimer = s.delayTimer := rfl
@[simp] theorem State.stall_soundTimer (s : State) : (s.stall).soundTimer = s.soundTimer := rfl
@[simp] theorem State.stall_display (s : State) : (s.stall).display = s.display := rfl
@[simp] theorem State.stall_keypadMask (s : State) : (s.stall).keypadMask = s.keypadMask := rfl
@[simp] theorem State.stall_keyAwaited (s : State) : (s.stall).keyAwaited = s.keyAwaited := rfl
@[simp] theorem State.stall_displayReady (s : State) : (s.stall).displayReady = s.displayReady := rfl
@[simp] theorem State.stall_justReset (s : State) : (s.stall).justReset = s.justReset := rfl
@[simp] theorem State.stall_rndInput (s : State) : (s.stall).rndInput = s.rndInput := rfl
@[simp] theorem State.stall_rndCount (s : State) : (s.stall).rndCount = s.rndCount := rfl
@[simp] theorem State.stall_schedule (s : State) : (s.stall).schedule = s.schedule := rfl

@[simp] theorem State.skip_v (s : State) : (s.skip).v = s.v := rfl
@[simp] theorem State.skip_memory (s : State) : (s.skip).memory = s.memory := rfl
@[simp] theorem State.skip_index (s : State) : (s.skip).index = s.index := rfl
@[simp] theorem State.skip_pc (s : State) : (s.skip).pc = s.pc + 2 := rfl
@[simp] theorem State.skip_stack (s : State) : (s.skip).stack = s.stack := rfl
@[simp] theorem State.skip_sp (s : State) : (s.skip).sp = s.sp := rfl
@[simp] theorem State.skip_delayTimer (s : State) : (s.skip).delayTimer = s.delayTimer := rfl
@[simp] theorem State.skip_soundTimer (s : State) : (s.skip).soundTimer = s.soundTimer := rfl
@[simp] theorem State.skip_display (s : State) : (s.skip).display = s.display := rfl
@[simp] theorem State.skip_keypadMask (s : State) : (s.skip).keypadMask = s.keypadMask := rfl
@[simp] theorem State.skip_keyAwaited (s : State) : (s.skip).keyAwaited = s.keyAwaited := rfl
@[simp] theorem State.skip_displayReady (s : State) : (s.skip).displayReady = s.displayReady := rfl
@[simp] theorem State.skip_justReset (s : State) : (s.skip).justReset = s.justReset := rfl
@[simp] theorem State.skip_rndInput (s : State) : (s.skip).rndInput = s.rndInput := rfl
@[simp] theorem State.skip_rndCount (s : State) : (s.skip).rndCount = s.rndCount := rfl
@[simp] theorem State.skip_schedule (s : State) : (s.skip).schedule = s.schedule := rfl

@[simp] theorem State.jump_v (s : State) (t : Word) : (s.jump t).v = s.v := rfl
@[simp] theorem State.jump_memory (s : State) (t : Word) : (s.jump t).memory = s.memory := rfl
@[simp] theorem State.jump_index (s : State) (t : Word) : (s.jump t).index = s.index := rfl
@[simp] theorem State.jump_pc (s : State) (t : Word) : (s.jump t).pc = t := rfl
@[simp] theorem State.jump_stack (s : State) (t : Word) : (s.jump t).stack = s.stack := rfl
@[simp] theorem State.jump_sp (s : State) (t : Word) : (s.jump t).sp = s.sp := rfl
@[simp] theorem State.jump_delayTimer (s : State) (t : Word) : (s.jump t).delayTimer = s.delayTimer := rfl
@[simp] theorem State.jump_soundTimer (s : State) (t : Word) : (s.jump t).soundTimer = s.soundTimer := rfl
@[simp] theorem State.jump_display (s : State) (t : Word) : (s.jump t).display = s.display := rfl
@[simp] theorem State.jump_keypadMask (s : State) (t : Word) : (s.jump t).keypadMask = s.keypadMask := rfl
@[simp] theorem State.jump_keyAwaited (s : State) (t : Word) : (s.jump t).keyAwaited = s.keyAwaited := rfl
@[simp] theorem State.jump_displayReady (s : State) (t : Word) : (s.jump t).displayReady = s.displayReady := rfl
@[simp] theorem State.jump_justReset (s : State) (t : Word) : (s.jump t).justReset = s.justReset := rfl
@[simp] theorem State.jump_rndInput (s : State) (t : Word) : (s.jump t).rndInput = s.rndInput := rfl
@[simp] theorem State.jump_rndCount (s : State) (t : Word) : (s.jump t).rndCount = s.rndCount := rfl
@[simp] theorem State.jump_schedule (s : State) (t : Word) : (s.jump t).schedule = s.schedule := rfl

@[simp] theorem State.advance_v (s : State) (rnd : Option Draw) : (s.advance rnd).v = s.v := rfl
@[simp] theorem State.advance_memory (s : State) (rnd : Option Draw) : (s.advance rnd).memory = s.memory := rfl
@[simp] theorem State.advance_index (s : State) (rnd : Option Draw) : (s.advance rnd).index = s.index := rfl
@[simp] theorem State.advance_pc (s : State) (rnd : Option Draw) : (s.advance rnd).pc = s.pc + 2 := rfl
@[simp] theorem State.advance_stack (s : State) (rnd : Option Draw) : (s.advance rnd).stack = s.stack := rfl
@[simp] theorem State.advance_sp (s : State) (rnd : Option Draw) : (s.advance rnd).sp = s.sp := rfl
@[simp] theorem State.advance_delayTimer (s : State) (rnd : Option Draw) :
    (s.advance rnd).delayTimer = s.delayTimer := rfl
@[simp] theorem State.advance_soundTimer (s : State) (rnd : Option Draw) :
    (s.advance rnd).soundTimer = s.soundTimer := rfl
@[simp] theorem State.advance_display (s : State) (rnd : Option Draw) : (s.advance rnd).display = s.display := rfl
@[simp] theorem State.advance_keypadMask (s : State) (rnd : Option Draw) :
    (s.advance rnd).keypadMask = s.keypadMask := rfl
@[simp] theorem State.advance_keyAwaited (s : State) (rnd : Option Draw) :
    (s.advance rnd).keyAwaited = s.keyAwaited := rfl
@[simp] theorem State.advance_displayReady (s : State) (rnd : Option Draw) :
    (s.advance rnd).displayReady = s.displayReady := rfl
@[simp] theorem State.advance_justReset (s : State) (rnd : Option Draw) : (s.advance rnd).justReset = false := rfl
@[simp] theorem State.advance_rndInput (s : State) (rnd : Option Draw) : (s.advance rnd).rndInput = rnd := rfl
@[simp] theorem State.advance_rndCount (s : State) (rnd : Option Draw) : (s.advance rnd).rndCount = s.rndCount := rfl
@[simp] theorem State.advance_schedule (s : State) (rnd : Option Draw) : (s.advance rnd).schedule = s.schedule := rfl

@[simp] theorem State.addIndex_v (s : State) (k : Word) : (s.addIndex k).v = s.v := rfl
@[simp] theorem State.addIndex_memory (s : State) (k : Word) : (s.addIndex k).memory = s.memory := rfl
@[simp] theorem State.addIndex_index (s : State) (k : Word) : (s.addIndex k).index = s.index + k := rfl
@[simp] theorem State.addIndex_pc (s : State) (k : Word) : (s.addIndex k).pc = s.pc := rfl
@[simp] theorem State.addIndex_stack (s : State) (k : Word) : (s.addIndex k).stack = s.stack := rfl
@[simp] theorem State.addIndex_sp (s : State) (k : Word) : (s.addIndex k).sp = s.sp := rfl
@[simp] theorem State.addIndex_delayTimer (s : State) (k : Word) : (s.addIndex k).delayTimer = s.delayTimer := rfl
@[simp] theorem State.addIndex_soundTimer (s : State) (k : Word) : (s.addIndex k).soundTimer = s.soundTimer := rfl
@[simp] theorem State.addIndex_display (s : State) (k : Word) : (s.addIndex k).display = s.display := rfl
@[simp] theorem State.addIndex_keypadMask (s : State) (k : Word) : (s.addIndex k).keypadMask = s.keypadMask := rfl
@[simp] theorem State.addIndex_keyAwaited (s : State) (k : Word) : (s.addIndex k).keyAwaited = s.keyAwaited := rfl
@[simp] theorem State.addIndex_displayReady (s : State) (k : Word) :
    (s.addIndex k).displayReady = s.displayReady := rfl
@[simp] theorem State.addIndex_justReset (s : State) (k : Word) : (s.addIndex k).justReset = s.justReset := rfl
@[simp] theorem State.addIndex_rndInput (s : State) (k : Word) : (s.addIndex k).rndInput = s.rndInput := rfl
@[simp] theorem State.addIndex_rndCount (s : State) (k : Word) : (s.addIndex k).rndCount = s.rndCount := rfl
@[simp] theorem State.addIndex_schedule (s : State) (k : Word) : (s.addIndex k).schedule = s.schedule := rfl

@[simp] theorem State.consumeDraw_v (s : State) : (s.consumeDraw).v = s.v := rfl
@[simp] theorem State.consumeDraw_memory (s : State) : (s.consumeDraw).memory = s.memory := rfl
@[simp] theorem State.consumeDraw_index (s : State) : (s.consumeDraw).index = s.index := rfl
@[simp] theorem State.consumeDraw_pc (s : State) : (s.consumeDraw).pc = s.pc := rfl
@[simp] theorem State.consumeDraw_stack (s : State) : (s.consumeDraw).stack = s.stack := rfl
@[simp] theorem State.consumeDraw_sp (s : State) : (s.consumeDraw).sp = s.sp := rfl
@[simp] theorem State.consumeDraw_delayTimer (s : State) : (s.consumeDraw).delayTimer = s.delayTimer := rfl
@[simp] theorem State.consumeDraw_soundTimer (s : State) : (s.consumeDraw).soundTimer = s.soundTimer := rfl
@[simp] theorem State.consumeDraw_display (s : State) : (s.consumeDraw).display = s.display := rfl
@[simp] theorem State.consumeDraw_keypadMask (s : State) : (s.consumeDraw).keypadMask = s.keypadMask := rfl
@[simp] theorem State.consumeDraw_keyAwaited (s : State) : (s.consumeDraw).keyAwaited = s.keyAwaited := rfl
@[simp] theorem State.consumeDraw_displayReady (s : State) : (s.consumeDraw).displayReady = s.displayReady := rfl
@[simp] theorem State.consumeDraw_justReset (s : State) : (s.consumeDraw).justReset = s.justReset := rfl
@[simp] theorem State.consumeDraw_rndInput (s : State) : (s.consumeDraw).rndInput = s.rndInput := rfl
@[simp] theorem State.consumeDraw_rndCount (s : State) :
    (s.consumeDraw).rndCount = if s.rndInput.isSome then s.rndCount else s.rndCount + 1 := rfl
@[simp] theorem State.consumeDraw_schedule (s : State) : (s.consumeDraw).schedule = s.schedule := rfl

/-- Reading a register after writing one. -/
theorem State.reg_setReg (s : State) (i j : Nibble) (b : Byte) :
    (s.setReg i b).reg j = if j = i then b else s.reg j := by
  simp only [State.reg, State.setReg, Vector.getElem_set]
  by_cases h : j = i
  · simp [h]
  · have : i.toNat ≠ j.toNat := fun e => h (BitVec.eq_of_toNat_eq e.symm)
    simp [h, this]

@[simp] theorem State.reg_setReg_self (s : State) (i : Nibble) (b : Byte) : (s.setReg i b).reg i = b := by
  simp [State.reg_setReg]

/-- Reading a register after writing a result and a flag: the flag wins (R143). -/
theorem State.reg_setRegFlag (s : State) (x j : Nibble) (r f : Byte) :
    (s.setRegFlag x r f).reg j = if j = 0xF then f else if j = x then r else s.reg j := by
  simp only [State.setRegFlag, State.reg_setReg]

/-- Registers are read from the register file alone. -/
theorem State.reg_congr {s t : State} (h : t.v = s.v) (i : Nibble) : t.reg i = s.reg i := by
  simp only [State.reg, h]

/-- Bytes are read from memory alone. -/
theorem State.readByte_congr {s t : State} (h : t.memory = s.memory) (a : Nat) : t.readByte a = s.readByte a := by
  simp only [State.readByte, h]

/-- Words are read from memory alone. -/
theorem State.readWord_congr {s t : State} (h : t.memory = s.memory) (a : Nat) : t.readWord a = s.readWord a := by
  simp only [State.readWord, State.readByte, h]

@[simp] theorem State.setReg_eta (s : State) (i : Nibble) (b : Byte) :
    { s with v := (s.setReg i b).v } = s.setReg i b := rfl

@[simp] theorem State.setRegFlag_eta (s : State) (x : Nibble) (r f : Byte) :
    { s with v := (s.setRegFlag x r f).v } = s.setRegFlag x r f := rfl

end Sys2Proof.Machine
end

