-- ==== Sys2Proof/Laws/Display.lean ====
section
/-!
SUPPORT. What toggling a pixel and drawing a sprite do to every pixel, and when a collision is noted (spec 43_display.md
R161, R162): the loops of the draw in closed form.
-/

namespace Sys2Proof.Machine

theorem Display.pixel_outside (d : Display) {r c : Nat} (h : ¬ (r < 32 ∧ c < 64)) : Display.pixel d r c = 0 := by
  simp [Display.pixel, h]

@[simp] theorem Display.pixel_clear (r c : Nat) : Display.pixel Display.clear r c = 0 := by
  unfold Display.pixel Display.clear
  split <;> simp

/-- Toggling a pixel inside the display changes that pixel alone. -/
theorem Display.pixel_toggle (d : Display) {r c : Nat} (hr : r < 32) (hc : c < 64) (r' c' : Nat) :
    Display.pixel (Display.toggle d r c) r' c' =
      if r' = r ∧ c' = c then Display.pixel d r' c' ^^^ pixelOn else Display.pixel d r' c' := by
  by_cases h' : r' < 32 ∧ c' < 64
  · simp only [Display.toggle, hr, hc, and_self, dif_pos, Display.pixel, h', Vector.getElem_set]
    by_cases h1 : r = r'
    · subst h1
      by_cases h2 : c = c'
      · subst h2; simp
      · simp [h2, Ne.symm h2]
    · simp [h1, Ne.symm h1]
  · rw [Display.pixel_outside _ h', Display.pixel_outside _ h']
    rw [if_neg]
    rintro ⟨rfl, rfl⟩
    exact h' ⟨hr, hc⟩

/-- The bits `j` to `j + n - 1` of a sprite row, in closed form: the pixels they toggle. -/
theorem drawBits_pixel (b : Byte) {r : Nat} (hr : r < 32) (x0 n : Nat) :
    ∀ (j : Nat) (p : Display × Bool) (r' c' : Nat),
      Display.pixel (drawBits b r x0 (List.range' j n) p).1 r' c' =
        if r' = r ∧ x0 + j ≤ c' ∧ c' < x0 + j + n ∧ c' < 64 ∧ b.getLsbD (7 - (c' - x0)) = true
        then Display.pixel p.1 r' c' ^^^ pixelOn else Display.pixel p.1 r' c' := by
  induction n with
  | zero =>
    intro j p r' c'
    rw [if_neg (by omega)]
    rfl
  | succ n ih =>
    intro j p r' c'
    rw [List.range'_succ, drawBits]
    by_cases hclip : 64 ≤ x0 + j
    · rw [if_pos hclip, if_neg (by omega)]
    · rw [if_neg hclip]
      have hsub : x0 + j - x0 = j := by omega
      by_cases hb : b.getLsbD (7 - j) = true
      · rw [if_pos hb, ih, Display.pixel_toggle p.1 hr (by omega)]
        by_cases h1 : r' = r ∧ c' = x0 + j
        · obtain ⟨rfl, rfl⟩ := h1
          rw [if_neg (by omega), if_pos ⟨rfl, rfl⟩, if_pos ⟨rfl, by omega, by omega, by omega, by rw [hsub]; exact hb⟩]
        · rw [if_neg h1]
          congr 1
          apply propext
          constructor
          · rintro ⟨h2, h3, h4, h5, h6⟩
            exact ⟨h2, by omega, by omega, h5, h6⟩
          · rintro ⟨h2, h3, h4, h5, h6⟩
            have : c' ≠ x0 + j := fun h => h1 ⟨h2, h⟩
            exact ⟨h2, by omega, by omega, h5, h6⟩
      · rw [if_neg hb, ih]
        congr 1
        apply propext
        constructor
        · rintro ⟨h2, h3, h4, h5, h6⟩
          exact ⟨h2, by omega, by omega, h5, h6⟩
        · rintro ⟨h2, h3, h4, h5, h6⟩
          have : c' ≠ x0 + j := by
            rintro rfl
            rw [hsub] at h6
            exact hb h6
          exact ⟨h2, by omega, by omega, h5, h6⟩

/-- The bits `j` to `j + n - 1` of a sprite row, in closed form: when a collision is noted. -/
theorem drawBits_collision (b : Byte) {r : Nat} (hr : r < 32) (x0 n : Nat) :
    ∀ (j : Nat) (p : Display × Bool),
      (drawBits b r x0 (List.range' j n) p).2 = true ↔
        p.2 = true ∨ ∃ c', x0 + j ≤ c' ∧ c' < x0 + j + n ∧ c' < 64 ∧ b.getLsbD (7 - (c' - x0)) = true ∧
          Display.on p.1 r c' = true := by
  induction n with
  | zero =>
    intro j p
    constructor
    · exact Or.inl
    · rintro (h | ⟨c', h1, h2, -⟩)
      · exact h
      · omega
  | succ n ih =>
    intro j p
    have hsub : x0 + j - x0 = j := by omega
    rw [List.range'_succ, drawBits]
    by_cases hclip : 64 ≤ x0 + j
    · rw [if_pos hclip]
      constructor
      · exact Or.inl
      · rintro (h | ⟨c', h1, h2, h3, -⟩)
        · exact h
        · omega
    · rw [if_neg hclip]
      by_cases hb : b.getLsbD (7 - j) = true
      · rw [if_pos hb, ih, Bool.or_eq_true, or_assoc]
        refine or_congr_right ?_
        constructor
        · rintro (h | ⟨c', h1, h2, h3, h4, h5⟩)
          · exact ⟨x0 + j, by omega, by omega, by omega, by rw [hsub]; exact hb, h⟩
          · refine ⟨c', by omega, by omega, h3, h4, ?_⟩
            simpa only [Display.on, Display.pixel_toggle p.1 hr (show x0 + j < 64 by omega), show ¬ (c' = x0 + j) by omega,
              and_false, if_false] using h5
        · rintro ⟨c', h1, h2, h3, h4, h5⟩
          by_cases hc : c' = x0 + j
          · subst hc; exact Or.inl h5
          · refine Or.inr ⟨c', by omega, by omega, h3, h4, ?_⟩
            simpa only [Display.on, Display.pixel_toggle p.1 hr (show x0 + j < 64 by omega), hc, and_false,
              if_false] using h5
      · rw [if_neg hb, ih]
        refine or_congr_right ?_
        constructor
        · rintro ⟨c', h1, h2, h3, h4, h5⟩
          exact ⟨c', by omega, by omega, h3, h4, h5⟩
        · rintro ⟨c', h1, h2, h3, h4, h5⟩
          have : c' ≠ x0 + j := by
            rintro rfl
            rw [hsub] at h4
            exact hb h4
          exact ⟨c', by omega, by omega, h3, h4, h5⟩

/-- The sprite bit that falls on row `r`, column `c`, for the rows `i` to `i + n - 1`. -/
def rowsCover (m : List Host.Cell) (base x0 y0 i n r c : Nat) : Prop :=
  y0 + i ≤ r ∧ r < y0 + i + n ∧ r < 32 ∧ x0 ≤ c ∧ c < x0 + 8 ∧ c < 64 ∧
    (Memory.read m (base + (r - y0))).getLsbD (7 - (c - x0)) = true

theorem rowsCover_succ {m : List Host.Cell} {base x0 y0 i n r c : Nat} (h : y0 + i < 32) :
    rowsCover m base x0 y0 i (n + 1) r c ↔
      (r = y0 + i ∧ x0 ≤ c ∧ c < x0 + 8 ∧ c < 64 ∧ (Memory.read m (base + i)).getLsbD (7 - (c - x0)) = true) ∨
        rowsCover m base x0 y0 (i + 1) n r c := by
  constructor
  · rintro ⟨h1, h2, h3, h4, h5, h6, h7⟩
    by_cases hr : r = y0 + i
    · subst hr
      rw [show y0 + i - y0 = i by omega] at h7
      exact Or.inl ⟨rfl, h4, h5, h6, h7⟩
    · exact Or.inr ⟨by omega, by omega, h3, h4, h5, h6, h7⟩
  · rintro (⟨rfl, h4, h5, h6, h7⟩ | ⟨h1, h2, h3, h4, h5, h6, h7⟩)
    · exact ⟨by omega, by omega, h, h4, h5, h6, by rw [show y0 + i - y0 = i by omega]; exact h7⟩
    · exact ⟨by omega, by omega, h3, h4, h5, h6, h7⟩

open Classical in
/-- The rows of a sprite, in closed form: the pixels they toggle. -/
theorem drawRows_pixel (m : List Host.Cell) (base x0 y0 n : Nat) :
    ∀ (i : Nat) (p : Display × Bool) (r c : Nat),
      Display.pixel (drawRows m base x0 y0 (List.range' i n) p).1 r c =
        if rowsCover m base x0 y0 i n r c then Display.pixel p.1 r c ^^^ pixelOn else Display.pixel p.1 r c := by
  induction n with
  | zero =>
    intro i p r c
    rw [if_neg (by unfold rowsCover; omega)]
    rfl
  | succ n ih =>
    intro i p r c
    rw [List.range'_succ, drawRows]
    by_cases hclip : 32 ≤ y0 + i
    · rw [if_pos hclip, if_neg (by unfold rowsCover; omega)]
    · have hrow : y0 + i < 32 := by omega
      rw [if_neg hclip, ih, List.range_eq_range', drawBits_pixel _ hrow]
      simp only [rowsCover_succ hrow, Nat.add_zero]
      by_cases hr : r = y0 + i
      · have hno : ¬ rowsCover m base x0 y0 (i + 1) n r c := by unfold rowsCover; omega
        rw [if_neg hno]
        congr 1
        simp only [hno, or_false]
      · simp only [hr, false_and, if_false, false_or]

/-- The rows of a sprite, in closed form: when a collision is noted. -/
theorem drawRows_collision (m : List Host.Cell) (base x0 y0 n : Nat) :
    ∀ (i : Nat) (p : Display × Bool),
      (drawRows m base x0 y0 (List.range' i n) p).2 = true ↔
        p.2 = true ∨ ∃ r c, rowsCover m base x0 y0 i n r c ∧ Display.on p.1 r c = true := by
  induction n with
  | zero =>
    intro i p
    constructor
    · exact Or.inl
    · rintro (h | ⟨r, c, ⟨h1, h2, -⟩, -⟩)
      · exact h
      · omega
  | succ n ih =>
    intro i p
    rw [List.range'_succ, drawRows]
    by_cases hclip : 32 ≤ y0 + i
    · rw [if_pos hclip]
      constructor
      · exact Or.inl
      · rintro (h | ⟨r, c, ⟨h1, h2, h3, -⟩, -⟩)
        · exact h
        · omega
    · have hrow : y0 + i < 32 := by omega
      have hon : ∀ r c, r ≠ y0 + i →
          Display.on (drawBits (Memory.read m (base + i)) (y0 + i) x0 (List.range 8) p).1 r c = Display.on p.1 r c := by
        intro r c hr
        simp only [Display.on, List.range_eq_range', drawBits_pixel _ hrow, hr, false_and, if_false]
      rw [if_neg hclip, ih, List.range_eq_range', drawBits_collision _ hrow, or_assoc]
      refine or_congr_right ?_
      simp only [rowsCover_succ hrow, Nat.add_zero]
      rw [← List.range_eq_range']
      constructor
      · rintro (⟨c, h1, h2, h3, h4, h5⟩ | ⟨r, c, h, h5⟩)
        · exact ⟨y0 + i, c, Or.inl ⟨rfl, h1, h2, h3, h4⟩, h5⟩
        · rw [hon r c (by have := h.1; omega)] at h5
          exact ⟨r, c, Or.inr h, h5⟩
      · rintro ⟨r, c, ⟨rfl, h1, h2, h3, h4⟩ | h, h5⟩
        · exact Or.inl ⟨c, h1, h2, h3, h4, h5⟩
        · refine Or.inr ⟨r, c, h, ?_⟩
          rw [hon r c (by have := h.1; omega)]
          exact h5

end Sys2Proof.Machine
end

