-- ==== Sys2Proof/Laws/Memory.lean ====
section
/-!
SUPPORT. The laws of memory: reading after writing, for every list of cells, and the canonical form, kept by every
operation.
-/

namespace Sys2Proof.Machine

@[simp] theorem Memory.read_nil (a : Nat) : Memory.read [] a = resetByte a := rfl

theorem Memory.read_cons (c : Host.Cell) (m : List Host.Cell) (a : Nat) :
    Memory.read (c :: m) a = if c.1 = a then c.2 else Memory.read m a := rfl

theorem Memory.read_erase (m : List Host.Cell) (a b : Nat) :
    Memory.read (Memory.erase m a) b = if b = a then resetByte a else Memory.read m b := by
  induction m with
  | nil => by_cases h : b = a <;> simp [Memory.erase, h]
  | cons c m ih =>
    simp only [Memory.erase] at ih ⊢
    by_cases hc : c.1 = a
    · simp only [hc, List.filter_cons, bne_self_eq_false, Bool.false_eq_true, if_false, ih, Memory.read_cons]
      by_cases h : b = a
      · simp [h]
      · simp [h, Ne.symm h]
    · simp only [List.filter_cons, bne_iff_ne, ne_eq, hc, not_false_eq_true, if_true, Memory.read_cons, ih]
      by_cases h : b = a
      · simp [h, hc]
      · simp [h]

theorem Memory.read_insert (m : List Host.Cell) (n : Host.Cell) (hm : ∀ c ∈ m, c.1 ≠ n.1) (b : Nat) :
    Memory.read (Memory.insert m n) b = if b = n.1 then n.2 else Memory.read m b := by
  induction m with
  | nil => simp [Memory.insert, Memory.read, eq_comm]
  | cons c m ih =>
    have hc := hm c (by simp)
    have ih := ih (fun d hd => hm d (by simp [hd]))
    unfold Memory.insert
    split
    · simp [Memory.read, eq_comm]
    · simp only [Memory.read_cons, ih]
      by_cases h : b = n.1
      · simp [h, hc]
      · simp [h]

/-- Reading after writing, one byte. -/
theorem Memory.read_write (m : List Host.Cell) (a b : Nat) (v : Byte) :
    Memory.read (Memory.write m a v) b = if b = a then v else Memory.read m b := by
  unfold Memory.write
  split
  · next h => rw [Memory.read_erase, h]
  · rw [Memory.read_insert _ _ (by simp [Memory.erase])]
    by_cases h : b = a
    · simp [h]
    · simp [h, Memory.read_erase]

/-- Reading after writing several bytes upwards. -/
theorem Memory.read_writeBytes (bs : List Byte) (m : List Host.Cell) (a b : Nat) :
    Memory.read (Memory.writeBytes m a bs) b =
      if h : a ≤ b ∧ b < a + bs.length then bs[b - a]'(by omega) else Memory.read m b := by
  induction bs generalizing m a with
  | nil => simp [Memory.writeBytes]
  | cons v bs ih =>
    rw [Memory.writeBytes, ih, Memory.read_write]
    by_cases h1 : b = a
    · subst h1
      rw [dif_neg (by omega), dif_pos (by simp)]
      simp
    · by_cases h2 : a + 1 ≤ b ∧ b < a + 1 + bs.length
      · rw [dif_pos h2, dif_pos (by simp; omega)]
        have : b - a = (b - (a + 1)) + 1 := by omega
        simp [this]
      · rw [dif_neg h2, dif_neg (by simp; omega), if_neg h1]

theorem Memory.wf_nil : Memory.wf [] := by simp [Memory.wf]

theorem Memory.wf_erase {m : List Host.Cell} (h : Memory.wf m) (a : Nat) : Memory.wf (Memory.erase m a) :=
  ⟨h.1.filter _, fun c hc => h.2 c (List.mem_of_mem_filter hc)⟩

theorem Memory.mem_insert {m : List Host.Cell} {n d : Host.Cell} :
    d ∈ Memory.insert m n ↔ d = n ∨ d ∈ m := by
  induction m with
  | nil => simp [Memory.insert]
  | cons c m ih =>
    unfold Memory.insert
    split
    · simp
    · simp [ih]; tauto

theorem Memory.sorted_insert {m : List Host.Cell} {n : Host.Cell} (h : m.Pairwise (fun c d => c.1 < d.1))
    (hm : ∀ c ∈ m, c.1 ≠ n.1) : (Memory.insert m n).Pairwise (fun c d => c.1 < d.1) := by
  induction m with
  | nil => simp [Memory.insert]
  | cons c m ih =>
    have hc := hm c (by simp)
    rw [List.pairwise_cons] at h
    unfold Memory.insert
    split
    · next hlt =>
      refine List.pairwise_cons.2 ⟨fun d hd => ?_, List.pairwise_cons.2 h⟩
      rcases List.mem_cons.1 hd with rfl | hd
      · exact hlt
      · exact Nat.lt_trans hlt (h.1 d hd)
    · next hlt =>
      refine List.pairwise_cons.2 ⟨fun d hd => ?_, ih h.2 (fun d hd => hm d (by simp [hd]))⟩
      rcases Memory.mem_insert.1 hd with rfl | hd
      · omega
      · exact h.1 d hd

/-- Writing a byte inside memory keeps the canonical form. -/
theorem Memory.wf_write {m : List Host.Cell} (h : Memory.wf m) {a : Nat} (ha : a < Config.memSize) (v : Byte) :
    Memory.wf (Memory.write m a v) := by
  have he := Memory.wf_erase h a
  unfold Memory.write
  split
  · exact he
  · next hv =>
    refine ⟨Memory.sorted_insert he.1 (by simp [Memory.erase]), fun d hd => ?_⟩
    rcases Memory.mem_insert.1 hd with rfl | hd
    · exact ⟨ha, hv⟩
    · exact he.2 d hd

/-- Writing bytes inside memory keeps the canonical form. -/
theorem Memory.wf_writeBytes {m : List Host.Cell} (h : Memory.wf m) {a : Nat} {bs : List Byte}
    (ha : a + bs.length ≤ Config.memSize) : Memory.wf (Memory.writeBytes m a bs) := by
  induction bs generalizing m a with
  | nil => exact h
  | cons v bs ih =>
    simp only [List.length_cons] at ha
    exact ih (Memory.wf_write h (by omega) v) (by omega)

end Sys2Proof.Machine
end

