-- ==== Sys2Proof/Laws/Ops.lean ====
section
/-!
SUPPORT. One lemma per shared operation that says all it can do: the range check, the skip, the fetch, loading a range
of registers, the flags, the least held key, counting down.
-/

namespace Sys2Proof.Machine

/-- The range check answers a next state iff the range lies inside memory or is empty, and it is then the effect. -/
theorem accessRange_next {base len : Nat} {t u : State} :
    accessRange base len t = .next u ↔ (0 < len → base + len - 1 ≤ 0xFFF) ∧ u = t := by
  unfold accessRange raise
  split
  · next h =>
    constructor
    · intro e; cases e
    · rintro ⟨h1, -⟩; exact absurd (h1 h.1) (by omega)
  · next h =>
    constructor
    · intro e; cases e; exact ⟨fun hl => by by_contra hc; exact h ⟨hl, by omega⟩, rfl⟩
    · rintro ⟨-, rfl⟩; rfl

/-- The range check reports the highest address of a range that leaves memory, and nothing else. -/
theorem accessRange_fault {base len : Nat} {t : State} {f : Fault} :
    accessRange base len t = .fault f ↔
      0 < len ∧ 0xFFF < base + len - 1 ∧ f = .addressOutOfRange (base + len - 1) := by
  unfold accessRange raise
  split
  · next h =>
    constructor
    · intro e; cases e; exact ⟨h.1, h.2, rfl⟩
    · rintro ⟨-, -, rfl⟩; rfl
  · next h =>
    constructor
    · intro e; cases e
    · rintro ⟨h1, h2, -⟩; exact absurd ⟨h1, h2⟩ h

theorem accessRange_ok {base len : Nat} {t : State} (h : 0 < len → base + len - 1 ≤ 0xFFF) :
    accessRange base len t = .next t := accessRange_next.2 ⟨h, rfl⟩

/-- The range check never refuses. -/
theorem accessRange_not_refused {base len : Nat} {t : State} {r : Refusal} : accessRange base len t ≠ .refused r := by
  unfold accessRange raise
  split <;> simp

/-- A skip changes `pc` alone, by 2 or not at all (R129). -/
theorem State.skipIf_eq (s : State) (c : Bool) :
    s.skipIf c = { s with pc := if c then s.pc + 2 else s.pc } := by
  cases c <;> rfl

/-- The fetch of R63, R90. -/
theorem fetch_eq (s : State) :
    fetch s = if 0xFFF ≤ s.pc.toNat then .error (.addressOutOfRange s.pc.toNat)
      else .ok (decode (s.readWord s.pc.toNat)) := by
  unfold fetch
  by_cases h : 0xFFF ≤ s.pc.toNat
  · rw [if_pos (by omega), if_pos h]
  · rw [if_neg (by omega), if_neg h]

theorem fetch_ok {s : State} (h : s.pc.toNat < 0xFFF) : fetch s = .ok (decode (s.readWord s.pc.toNat)) := by
  rw [fetch_eq, if_neg (by omega)]

/-- The address of the instruction, after the fetch advance. -/
@[simp] theorem State.instrAddr_advance (s : State) (rnd : Option Draw) : (s.advance rnd).instrAddr = s.pc := by
  simp [State.instrAddr]

/-- Loading the first `n` registers of a range (R155). -/
theorem loadRange_get (m : List Host.Cell) (a : Nat) (v : Vector Byte 16) (n : Nat) (hn : n ≤ 16) {j : Nat}
    (hj : j < 16) : (loadRange m a v n)[j] = if j < n then Memory.read m (a + j) else v[j] := by
  induction n with
  | zero => simp [loadRange]
  | succ k ih =>
    simp only [loadRange, Vector.getElem_setIfInBounds]
    by_cases h : k = j
    · subst h; simp
    · rw [if_neg h, ih (by omega)]
      by_cases h2 : j < k
      · rw [if_pos h2, if_pos (by omega)]
      · rw [if_neg h2, if_neg (by omega)]

theorem State.regsBelow_length (s : State) {n : Nat} (hn : n ≤ 16) : (s.regsBelow n).length = n := by
  simp [State.regsBelow, hn]

theorem State.regsBelow_get (s : State) {n j : Nat} (h : j < (s.regsBelow n).length) (hj : j < 16) :
    (s.regsBelow n)[j] = s.v[j] := by
  simp [State.regsBelow]

theorem bcdDigits_length (b : Byte) : (bcdDigits b).length = 3 := rfl

theorem flag_toNat (c : Bool) : (flag c).toNat = if c then 1 else 0 := by cases c <;> rfl

theorem carryFlag_toNat (a b : Byte) : (carryFlag a b).toNat = if 255 < a.toNat + b.toNat then 1 else 0 := by
  simp [carryFlag, flag_toNat]

theorem noBorrowFlag_toNat (a b : Byte) : (noBorrowFlag a b).toNat = if b.toNat ≤ a.toNat then 1 else 0 := by
  simp [noBorrowFlag, flag_toNat]

/-- A key held below 16, or nothing, is what the scan finds; and it is the least one (R172). -/
theorem State.leastHeld_eq_some {s : State} {k : Nibble} :
    s.leastHeld = some k ↔ s.held k.toNat = true ∧ ∀ j, j < k.toNat → s.held j = false := by
  unfold State.leastHeld
  rw [Option.map_eq_some_iff]
  constructor
  · rintro ⟨j, hj, rfl⟩
    rw [List.find?_range_eq_some] at hj
    obtain ⟨h1, h2, h3⟩ := hj
    have hlt : j < 16 := by simpa using h2
    rw [show (BitVec.ofNat 4 j).toNat = j by simp; omega]
    exact ⟨h1, fun i hi => by simpa using h3 i hi⟩
  · rintro ⟨h1, h2⟩
    refine ⟨k.toNat, ?_, by simp⟩
    rw [List.find?_range_eq_some]
    exact ⟨h1, by have := k.isLt; simp; omega, fun i hi => by simpa using h2 i hi⟩

theorem State.leastHeld_eq_none {s : State} : s.leastHeld = none ↔ ∀ j, j < 16 → s.held j = false := by
  simp [State.leastHeld]

/-- One count down on the numbers (R215). -/
theorem countDown_toNat (t : Byte) : (countDown t).toNat = t.toNat - 1 := by
  have := t.isLt
  unfold countDown
  split
  · rw [BitVec.toNat_sub]; simp; omega
  · omega

end Sys2Proof.Machine
end

