-- ==== Sys2Proof/Laws/Exec.lean ====
section
/-!
SUPPORT. What the meanings with a condition answer, case by case: the call and the return, the draw, the key wait;
and the fields that no instruction writes.
-/

namespace Sys2Proof.Machine

theorem execCall_ok (nnn : Addr12) {s : State} (h : s.sp.val < 16) :
    execCall nnn s =
      .next { s with stack := s.stack.set s.sp.val s.pc, sp := ⟨s.sp.val + 1, by omega⟩, pc := zext16 nnn } :=
  dif_pos h

theorem execCall_full (nnn : Addr12) {s : State} (h : ¬ s.sp.val < 16) :
    execCall nnn s = .fault (.stackOverflow s.instrAddr) :=
  dif_neg h

theorem execRet_ok (ign : Nibble) {s : State} (h : 0 < s.sp.val) :
    execRet ign s =
      .next { s with sp := ⟨s.sp.val - 1, by omega⟩, pc := s.stack[s.sp.val - 1]'(by omega) } :=
  dif_pos h

theorem execRet_empty (ign : Nibble) {s : State} (h : ¬ 0 < s.sp.val) :
    execRet ign s = .fault (.stackUnderflow s.instrAddr) :=
  dif_neg h

/-- A call that answers a next state found room on the stack. -/
theorem execCall_next {nnn : Addr12} {s t : State} (h : execCall nnn s = .next t) :
    ∃ hs : s.sp.val < 16,
      t = { s with stack := s.stack.set s.sp.val s.pc, sp := ⟨s.sp.val + 1, by omega⟩, pc := zext16 nnn } := by
  by_cases hs : s.sp.val < 16
  · cases (execCall_ok nnn hs).symm.trans h; exact ⟨hs, rfl⟩
  · cases (execCall_full nnn hs).symm.trans h

/-- A return that answers a next state found a return address. -/
theorem execRet_next {ign : Nibble} {s t : State} (h : execRet ign s = .next t) :
    ∃ hs : 0 < s.sp.val,
      t = { s with sp := ⟨s.sp.val - 1, by omega⟩, pc := s.stack[s.sp.val - 1]'(by omega) } := by
  by_cases hs : 0 < s.sp.val
  · cases (execRet_ok ign hs).symm.trans h; exact ⟨hs, rfl⟩
  · cases (execRet_empty ign hs).symm.trans h

theorem execDrw_stalled (x y n : Nibble) {s : State} (h : s.displayReady = true) :
    execDrw x y n s = .next s.stall := by
  simp only [execDrw, h, if_true]

theorem execDrw_running (x y n : Nibble) {s : State} (h : s.displayReady = false) :
    execDrw x y n s = accessRange s.base n.toNat (s.drawSprite x y n) := by
  simp only [execDrw, h, Bool.false_eq_true, if_false]

/-- A draw that answers a next state has stalled or drawn. -/
theorem execDrw_next {x y n : Nibble} {s t : State} (h : execDrw x y n s = .next t) :
    (s.displayReady = true ∧ t = s.stall) ∨
    (s.displayReady = false ∧ (0 < n.toNat → s.base + n.toNat - 1 ≤ 0xFFF) ∧ t = s.drawSprite x y n) := by
  cases hr : s.displayReady with
  | true => rw [execDrw_stalled x y n hr] at h; cases h; exact Or.inl ⟨rfl, rfl⟩
  | false => rw [execDrw_running x y n hr] at h; exact Or.inr ⟨rfl, accessRange_next.1 h⟩

theorem execLdVxK_phase1 (x : Nibble) {s : State} (h : s.keyAwaited = none) :
    execLdVxK x s = .next { s with keyAwaited := s.leastHeld, pc := s.pc - 2 } := by
  simp only [execLdVxK, h]
  rfl

theorem execLdVxK_held (x : Nibble) {s : State} {k : Nibble} (h : s.keyAwaited = some k) (hk : s.held k.toNat = true) :
    execLdVxK x s = .next s.stall := by
  simp only [execLdVxK, h, hk, if_true]

theorem execLdVxK_released (x : Nibble) {s : State} {k : Nibble} (h : s.keyAwaited = some k)
    (hk : s.held k.toNat = false) :
    execLdVxK x s = .next ({ s with keyAwaited := none }.setReg x (zext8 k)) := by
  simp only [execLdVxK, h, hk, Bool.false_eq_true, if_false]

/-- A key wait that answers a next state (it always does) is in one of its three cases (R172). -/
theorem execLdVxK_next {x : Nibble} {s t : State} (h : execLdVxK x s = .next t) :
    (s.keyAwaited = none ∧ t = { s with keyAwaited := s.leastHeld, pc := s.pc - 2 }) ∨
    ∃ k, s.keyAwaited = some k ∧ ((s.held k.toNat = true ∧ t = s.stall) ∨
      (s.held k.toNat = false ∧ t = { s with keyAwaited := none }.setReg x (zext8 k))) := by
  cases hk : s.keyAwaited with
  | none => rw [execLdVxK_phase1 x hk] at h; cases h; exact Or.inl ⟨rfl, rfl⟩
  | some k =>
    cases hh : s.held k.toNat with
    | true => rw [execLdVxK_held x hk hh] at h; cases h; exact Or.inr ⟨k, rfl, Or.inl ⟨hh, rfl⟩⟩
    | false => rw [execLdVxK_released x hk hh] at h; cases h; exact Or.inr ⟨k, rfl, Or.inr ⟨hh, rfl⟩⟩

/-! The effect of a draw that neither stalls nor faults (R161). -/

@[simp] theorem State.drawSprite_displayReady (s : State) (x y n : Nibble) :
    (s.drawSprite x y n).displayReady = true := rfl
@[simp] theorem State.drawSprite_memory (s : State) (x y n : Nibble) : (s.drawSprite x y n).memory = s.memory := rfl
@[simp] theorem State.drawSprite_index (s : State) (x y n : Nibble) : (s.drawSprite x y n).index = s.index := rfl
@[simp] theorem State.drawSprite_pc (s : State) (x y n : Nibble) : (s.drawSprite x y n).pc = s.pc := rfl
@[simp] theorem State.drawSprite_stack (s : State) (x y n : Nibble) : (s.drawSprite x y n).stack = s.stack := rfl
@[simp] theorem State.drawSprite_sp (s : State) (x y n : Nibble) : (s.drawSprite x y n).sp = s.sp := rfl
@[simp] theorem State.drawSprite_delayTimer (s : State) (x y n : Nibble) :
    (s.drawSprite x y n).delayTimer = s.delayTimer := rfl
@[simp] theorem State.drawSprite_soundTimer (s : State) (x y n : Nibble) :
    (s.drawSprite x y n).soundTimer = s.soundTimer := rfl
@[simp] theorem State.drawSprite_keypadMask (s : State) (x y n : Nibble) :
    (s.drawSprite x y n).keypadMask = s.keypadMask := rfl
@[simp] theorem State.drawSprite_keyAwaited (s : State) (x y n : Nibble) :
    (s.drawSprite x y n).keyAwaited = s.keyAwaited := rfl
@[simp] theorem State.drawSprite_justReset (s : State) (x y n : Nibble) :
    (s.drawSprite x y n).justReset = s.justReset := rfl
@[simp] theorem State.drawSprite_rndInput (s : State) (x y n : Nibble) :
    (s.drawSprite x y n).rndInput = s.rndInput := rfl
@[simp] theorem State.drawSprite_rndCount (s : State) (x y n : Nibble) :
    (s.drawSprite x y n).rndCount = s.rndCount := rfl
@[simp] theorem State.drawSprite_schedule (s : State) (x y n : Nibble) :
    (s.drawSprite x y n).schedule = s.schedule := rfl

/-- A draw changes the registers, the display and the latch alone. -/
theorem State.drawSprite_frame (s : State) (x y n : Nibble) :
    s.drawSprite x y n =
      { s with v := (s.drawSprite x y n).v, display := (s.drawSprite x y n).display, displayReady := true } := rfl

/-- A draw writes no register but `VF`. -/
theorem State.drawSprite_reg (s : State) (x y n : Nibble) {i : Nibble} (h : i ≠ 0xF) :
    (s.drawSprite x y n).reg i = s.reg i := by
  unfold State.drawSprite
  simp only [State.reg_setReg, if_neg h]
  rfl

open Classical in
/-- The pixels after a draw: toggled where a 1-bit of the sprite falls inside the display. -/
theorem State.drawSprite_pixel (s : State) (x y n : Nibble) (r c : Nat) :
    (s.drawSprite x y n).pixel r c =
      if rowsCover s.memory s.base (originCol (s.reg x)) (originRow (s.reg y)) 0 n.toNat r c
      then s.pixel r c ^^^ pixelOn else s.pixel r c := by
  unfold State.pixel State.drawSprite
  simp only [State.setReg_display, List.range_eq_range', drawRows_pixel]

/-- `VF` after a draw: 1 iff a 1-bit of the sprite fell on a pixel that was on, else 0. -/
theorem State.drawSprite_vf (s : State) (x y n : Nibble) :
    (s.drawSprite x y n).vf = 1 ↔
      ∃ r c, rowsCover s.memory s.base (originCol (s.reg x)) (originRow (s.reg y)) 0 n.toNat r c ∧
        Display.on s.display r c = true := by
  unfold State.vf State.drawSprite
  simp only [State.reg_setReg_self, collisionFlag, flag, List.range_eq_range']
  rw [show (∀ b : Bool, ((if b then (1 : Byte) else 0) = 1) ↔ b = true) from by decide, drawRows_collision]
  simp

theorem State.drawSprite_vf_cases (s : State) (x y n : Nibble) :
    (s.drawSprite x y n).vf = 0 ∨ (s.drawSprite x y n).vf = 1 := by
  unfold State.vf State.drawSprite
  simp only [State.reg_setReg_self, collisionFlag, flag]
  split <;> simp

/-! What no instruction writes. -/

/-- No instruction writes the argument of the `CYCLE`, the note of `RESET` or the host's schedule. -/
theorem exec_next_own {i : Instr} {s t : State} (h : exec i s = .next t) :
    t.justReset = s.justReset ∧ t.rndInput = s.rndInput ∧ t.schedule = s.schedule := by
  cases i with
  | drw x y n => rcases execDrw_next h with ⟨_, rfl⟩ | ⟨_, _, rfl⟩ <;> exact ⟨rfl, rfl, rfl⟩
  | ldVxK x =>
    rcases execLdVxK_next h with ⟨_, rfl⟩ | ⟨k, _, h2⟩
    · exact ⟨rfl, rfl, rfl⟩
    · rcases h2 with ⟨_, rfl⟩ | ⟨_, rfl⟩ <;> exact ⟨rfl, rfl, rfl⟩
  | call nnn => obtain ⟨_, rfl⟩ := execCall_next h; exact ⟨rfl, rfl, rfl⟩
  | ret ign => obtain ⟨_, rfl⟩ := execRet_next (ign := ign) h; exact ⟨rfl, rfl, rfl⟩
  | ldB x => obtain ⟨_, rfl⟩ := accessRange_next.1 h; exact ⟨rfl, rfl, rfl⟩
  | storeRegs x => obtain ⟨_, rfl⟩ := accessRange_next.1 h; exact ⟨rfl, rfl, rfl⟩
  | loadRegs x => obtain ⟨_, rfl⟩ := accessRange_next.1 h; exact ⟨rfl, rfl, rfl⟩
  | seImm | sneImm | seReg | sneReg | skp | sknp => cases h; rw [State.skipIf_eq]; exact ⟨rfl, rfl, rfl⟩
  | _ => cases h; exact ⟨rfl, rfl, rfl⟩

end Sys2Proof.Machine
end

