-- ==== Sys2Proof/Laws/PerInstr.lean ====
section
/-!
SUPPORT. For every instruction: its word selects its row of the opcode table (spec 30_encoding.md R96, R97).
-/

namespace Sys2Proof.Laws.Encoding

/-- The word of the instruction selects the instruction's row of the opcode table. -/
def Statement (i : Instr) : Prop := i.row.selects (encode i) = true

theorem row_F000 {v w : Word} (hv : fieldNnn v = 0) (hc : opClass w = opClass v) :
    TableRow.selects ⟨v, 0xF000⟩ w = true := by
  rw [selects_F000]
  exact decide_eq_true ⟨hv, hc⟩

theorem row_F00F {v w : Word} (hx : fieldX v = 0) (hy : fieldY v = 0) (hc : opClass w = opClass v)
    (hn : fieldN w = fieldN v) : TableRow.selects ⟨v, 0xF00F⟩ w = true := by
  rw [selects_F00F]
  exact decide_eq_true ⟨hx, hy, hc, hn⟩

theorem row_F0FF {v w : Word} (hx : fieldX v = 0) (hc : opClass w = opClass v) (hk : fieldKk w = fieldKk v) :
    TableRow.selects ⟨v, 0xF0FF⟩ w = true := by
  rw [selects_F0FF]
  exact decide_eq_true ⟨hx, hc, hk⟩

theorem cls (ign : Nibble) : Statement (.cls ign) := row_F0FF rfl (opClass_wordXKK ..) (fieldKk_wordXKK ..)

theorem ret (ign : Nibble) : Statement (.ret ign) := row_F0FF rfl (opClass_wordXKK ..) (fieldKk_wordXKK ..)

theorem jp (nnn : Addr12) : Statement (.jp nnn) := row_F000 rfl (opClass_wordNNN ..)

theorem call (nnn : Addr12) : Statement (.call nnn) := row_F000 rfl (opClass_wordNNN ..)

theorem seImm (x : Nibble) (kk : Byte) : Statement (.seImm x kk) := row_F000 rfl (opClass_wordXKK ..)

theorem sneImm (x : Nibble) (kk : Byte) : Statement (.sneImm x kk) := row_F000 rfl (opClass_wordXKK ..)

theorem seReg (x y : Nibble) : Statement (.seReg x y) := row_F00F rfl rfl (opClass_wordXYN ..) (fieldN_wordXYN ..)

theorem ldImm (x : Nibble) (kk : Byte) : Statement (.ldImm x kk) := row_F000 rfl (opClass_wordXKK ..)

theorem addImm (x : Nibble) (kk : Byte) : Statement (.addImm x kk) := row_F000 rfl (opClass_wordXKK ..)

theorem ldReg (x y : Nibble) : Statement (.ldReg x y) := row_F00F rfl rfl (opClass_wordXYN ..) (fieldN_wordXYN ..)

theorem orReg (x y : Nibble) : Statement (.orReg x y) := row_F00F rfl rfl (opClass_wordXYN ..) (fieldN_wordXYN ..)

theorem andReg (x y : Nibble) : Statement (.andReg x y) := row_F00F rfl rfl (opClass_wordXYN ..) (fieldN_wordXYN ..)

theorem xorReg (x y : Nibble) : Statement (.xorReg x y) := row_F00F rfl rfl (opClass_wordXYN ..) (fieldN_wordXYN ..)

theorem addReg (x y : Nibble) : Statement (.addReg x y) := row_F00F rfl rfl (opClass_wordXYN ..) (fieldN_wordXYN ..)

theorem subReg (x y : Nibble) : Statement (.subReg x y) := row_F00F rfl rfl (opClass_wordXYN ..) (fieldN_wordXYN ..)

theorem shrReg (x y : Nibble) : Statement (.shrReg x y) := row_F00F rfl rfl (opClass_wordXYN ..) (fieldN_wordXYN ..)

theorem subnReg (x y : Nibble) : Statement (.subnReg x y) := row_F00F rfl rfl (opClass_wordXYN ..) (fieldN_wordXYN ..)

theorem shlReg (x y : Nibble) : Statement (.shlReg x y) := row_F00F rfl rfl (opClass_wordXYN ..) (fieldN_wordXYN ..)

theorem sneReg (x y : Nibble) : Statement (.sneReg x y) := row_F00F rfl rfl (opClass_wordXYN ..) (fieldN_wordXYN ..)

theorem ldI (nnn : Addr12) : Statement (.ldI nnn) := row_F000 rfl (opClass_wordNNN ..)

theorem jpV0 (nnn : Addr12) : Statement (.jpV0 nnn) := row_F000 rfl (opClass_wordNNN ..)

theorem rnd (x : Nibble) (kk : Byte) : Statement (.rnd x kk) := row_F000 rfl (opClass_wordXKK ..)

theorem drw (x y n : Nibble) : Statement (.drw x y n) := row_F000 rfl (opClass_wordXYN ..)

theorem skp (x : Nibble) : Statement (.skp x) := row_F0FF rfl (opClass_wordXKK ..) (fieldKk_wordXKK ..)

theorem sknp (x : Nibble) : Statement (.sknp x) := row_F0FF rfl (opClass_wordXKK ..) (fieldKk_wordXKK ..)

theorem ldVxDt (x : Nibble) : Statement (.ldVxDt x) := row_F0FF rfl (opClass_wordXKK ..) (fieldKk_wordXKK ..)

theorem ldVxK (x : Nibble) : Statement (.ldVxK x) := row_F0FF rfl (opClass_wordXKK ..) (fieldKk_wordXKK ..)

theorem ldDtVx (x : Nibble) : Statement (.ldDtVx x) := row_F0FF rfl (opClass_wordXKK ..) (fieldKk_wordXKK ..)

theorem ldStVx (x : Nibble) : Statement (.ldStVx x) := row_F0FF rfl (opClass_wordXKK ..) (fieldKk_wordXKK ..)

theorem addI (x : Nibble) : Statement (.addI x) := row_F0FF rfl (opClass_wordXKK ..) (fieldKk_wordXKK ..)

theorem ldF (x : Nibble) : Statement (.ldF x) := row_F0FF rfl (opClass_wordXKK ..) (fieldKk_wordXKK ..)

theorem ldB (x : Nibble) : Statement (.ldB x) := row_F0FF rfl (opClass_wordXKK ..) (fieldKk_wordXKK ..)

theorem storeRegs (x : Nibble) : Statement (.storeRegs x) := row_F0FF rfl (opClass_wordXKK ..) (fieldKk_wordXKK ..)

theorem loadRegs (x : Nibble) : Statement (.loadRegs x) := row_F0FF rfl (opClass_wordXKK ..) (fieldKk_wordXKK ..)

theorem nop0 (bits : Addr12) : Statement (.nop0 bits) := row_F000 rfl (opClass_wordNNN ..)

theorem nop5 (bits : Addr12) : Statement (.nop5 bits) := row_F000 rfl (opClass_wordNNN ..)

theorem nop8 (bits : Addr12) : Statement (.nop8 bits) := row_F000 rfl (opClass_wordNNN ..)

theorem nop9 (bits : Addr12) : Statement (.nop9 bits) := row_F000 rfl (opClass_wordNNN ..)

theorem nopE (bits : Addr12) : Statement (.nopE bits) := row_F000 rfl (opClass_wordNNN ..)

theorem nopF (bits : Addr12) : Statement (.nopF bits) := row_F000 rfl (opClass_wordNNN ..)

end Sys2Proof.Laws.Encoding
end

