-- ==== Sys2Proof/Laws/Step.lean ====
section
/-!
SUPPORT. What a step, an event and a `CYCLE` can do (spec 00_scope.md R7, 30_encoding.md R90): the lemmas later proofs cite
instead of unfolding them.
-/

namespace Sys2Proof.Machine

theorem step_cycle {s : State} (h : s.schedule = []) : step s = cycle none s := by
  simp only [step, h]

theorem step_event {s : State} {e : Event} {es : List Event} (h : s.schedule = e :: es) :
    step s = issue e { s with schedule := es } := by
  simp only [step, h]

/-- A `CYCLE` whose fetch lies in memory is the dispatch of the instruction at `pc`, after the fetch advance. -/
theorem cycle_ok {s : State} (rnd : Option Draw) (h : s.pc.toNat < 0xFFF) :
    cycle rnd s = exec (decode (s.readWord s.pc.toNat)) (s.advance rnd) := by
  simp only [cycle, fetch_ok h]

/-- A `CYCLE` whose fetch leaves memory reports it. -/
theorem cycle_fetch_fault {s : State} (rnd : Option Draw) (h : 0xFFF ≤ s.pc.toNat) :
    cycle rnd s = .fault (.addressOutOfRange s.pc.toNat) := by
  simp only [cycle, fetch_eq, if_pos h, raise]

/-- A `CYCLE` that answers a next state fetched from memory and dispatched the instruction at `pc`. -/
theorem cycle_next {s t : State} {rnd : Option Draw} (h : cycle rnd s = .next t) :
    s.pc.toNat < 0xFFF ∧ exec (decode (s.readWord s.pc.toNat)) (s.advance rnd) = .next t := by
  by_cases hp : s.pc.toNat < 0xFFF
  · exact ⟨hp, (cycle_ok rnd hp).symm.trans h⟩
  · rw [cycle_fetch_fault rnd (by omega)] at h
    cases h

/-- What `LOAD` does, in its three cases (R246). -/
theorem loadProgram_next {bytes : List Byte} {s t : State} :
    loadProgram bytes s = .next t ↔ s.justReset = true ∧ bytes.length < Config.progLimit ∧
      t = { s with memory := Memory.writeBytes s.memory Config.progBase bytes, justReset := false } := by
  unfold loadProgram raise
  split
  · next h =>
    split
    · next h2 =>
      constructor
      · intro e; cases e
      · rintro ⟨-, h3, -⟩; omega
    · next h2 =>
      constructor
      · intro e; cases e; exact ⟨h, by omega, rfl⟩
      · rintro ⟨-, -, rfl⟩; rfl
  · next h =>
    constructor
    · intro e; cases e
    · rintro ⟨h1, -⟩; exact absurd h1 h

/-- Every step that answers a next state is one of the six events, with the rest of the schedule left. -/
theorem step_next_cases {s t : State} (h : step s = .next t) :
    (s.schedule = [] ∧ cycle none s = .next t) ∨
    ∃ e es, s.schedule = e :: es ∧ issue e { s with schedule := es } = .next t := by
  cases hs : s.schedule with
  | nil => exact Or.inl ⟨rfl, (step_cycle hs).symm.trans h⟩
  | cons e es => exact Or.inr ⟨e, es, rfl, (step_event hs).symm.trans h⟩

/-- One more step of a run that begins with a next state. -/
theorem core_run_succ (k : Nat) {s t : State} (h : step s = .next t) :
    Host.Core.run Sys2Proof.core (k + 1) s = Host.Core.run Sys2Proof.core k t := by
  have hc : Sys2Proof.core.step s = .next t := h
  simp only [Host.Core.run, hc]

end Sys2Proof.Machine
end

