-- ==== Sys2Proof/Tests/Slice0.lean ====
section
/-!
SUPPORT. Tests: ill-formed instructions refused, words written out from the opcode map (spec 30_encoding.md R96), one
step each from spec/95_test_vectors.md, and a witness for the hypotheses of every obligation that has some.
-/

namespace Sys2Proof.Tests

open Sys2Proof Sys2Proof.Machine Sys2Proof.Safety

/-! Helpers. A vector's start state is the reset state with what its "before" column lists. -/

/-- The state after `RESET`. -/
abbrev s0 : State := State.reset

/-- With `V[i]`. -/
def State.wv (s : State) (i : Nibble) (b : Byte) : State := s.setReg i b

/-- With bytes in memory. -/
def State.wm (s : State) (a : Nat) (bs : List Byte) : State := { s with memory := Memory.writeBytes s.memory a bs }

/-- With a pixel on. -/
def State.wp (s : State) (r c : Nat) : State := { s with display := Display.toggle s.display r c }

/-- One step on the word placed at `pc` answers a next state of which `p` holds. -/
def gives (s : State) (w : Nat) (p : State → Bool) : Bool :=
  match step (s.withFetchWord 16 w) with
  | .next t => p t
  | .fault _ => false
  | .refused _ => false

/-- One step on the word placed at `pc` faults so. -/
def faults (s : State) (w : Nat) (f : Fault) : Bool :=
  match step (s.withFetchWord 16 w) with
  | .next _ => false
  | .fault g => g == f
  | .refused _ => false

/-- One event. -/
def event (s : State) (e : Event) (p : State → Bool) : Bool :=
  match step { s with schedule := [e] } with
  | .next t => p t
  | .fault _ => false
  | .refused _ => false

/-- The pixels of a block of the display that are on, row by row. -/
def onIn (t : State) (rows cols : List Nat) : List (Nat × Nat) :=
  (rows.map (fun r => cols.map (fun c => (r, c)))).flatten.filter (fun p => Display.on t.display p.1 p.2)

/-! Ill-formed instructions: a term for each check of `wellFormed`. -/

theorem test_ill_formed_nop0 : Instr.wellFormed (.nop0 0x1E0) = false := by decide
theorem test_ill_formed_nop5 : Instr.wellFormed (.nop5 0x120) = false := by decide
theorem test_ill_formed_nop8 : Instr.wellFormed (.nop8 0x12E) = false := by decide
theorem test_ill_formed_nop9 : Instr.wellFormed (.nop9 0x120) = false := by decide
theorem test_ill_formed_nopE : Instr.wellFormed (.nopE 0x1A1) = false := by decide
theorem test_ill_formed_nopF : Instr.wellFormed (.nopF 0x133) = false := by decide
theorem test_well_formed : Instr.wellFormed (.nop8 0x12F) = true ∧ Instr.wellFormed (.drw 0xF 0xF 0xF) = true := by decide

/-! Decoding: a word of every row, its bits written out from the rows of R96 and R181 to R186. -/

theorem test_decode_class0 : decode 0b0000_0000_1110_0000 = .cls 0 ∧ decode 0b0000_1010_1110_1110 = .ret 0xA ∧
    decode 0b0000_0001_0010_0011 = .nop0 0x123 := by decide
theorem test_decode_jumps : decode 0b0001_0010_0011_0100 = .jp 0x234 ∧ decode 0b0010_1010_1011_1100 = .call 0xABC ∧
    decode 0b1011_1111_1111_1110 = .jpV0 0xFFE ∧ decode 0b1010_0010_0011_0100 = .ldI 0x234 := by decide
theorem test_decode_skips : decode 0b0011_1010_0111_1111 = .seImm 0xA 0x7F ∧
    decode 0b0100_1010_0111_1111 = .sneImm 0xA 0x7F ∧ decode 0b0101_0001_0010_0000 = .seReg 1 2 ∧
    decode 0b1001_0001_0010_0000 = .sneReg 1 2 := by decide
theorem test_decode_immediates : decode 0b0110_0011_1000_0001 = .ldImm 3 0x81 ∧
    decode 0b0111_0011_1000_0001 = .addImm 3 0x81 ∧ decode 0b1100_0011_1000_0001 = .rnd 3 0x81 := by decide
theorem test_decode_class8 : decode 0b1000_1010_1011_0000 = .ldReg 0xA 0xB ∧
    decode 0b1000_1010_1011_0001 = .orReg 0xA 0xB ∧ decode 0b1000_1010_1011_0010 = .andReg 0xA 0xB ∧
    decode 0b1000_1010_1011_0011 = .xorReg 0xA 0xB ∧ decode 0b1000_1010_1011_0100 = .addReg 0xA 0xB := by decide
theorem test_decode_class8_high : decode 0b1000_1010_1011_0101 = .subReg 0xA 0xB ∧
    decode 0b1000_1010_1011_0110 = .shrReg 0xA 0xB ∧ decode 0b1000_1010_1011_0111 = .subnReg 0xA 0xB ∧
    decode 0b1000_1010_1011_1110 = .shlReg 0xA 0xB ∧ decode 0b1000_1010_1011_1111 = .nop8 0xABF := by decide
theorem test_decode_draw_and_keys : decode 0b1101_0000_0001_1111 = .drw 0 1 0xF ∧
    decode 0b1110_0101_1001_1110 = .skp 5 ∧ decode 0b1110_0101_1010_0001 = .sknp 5 ∧
    decode 0b1110_0101_1010_0000 = .nopE 0x5A0 := by decide
theorem test_decode_classF_low : decode 0b1111_0011_0000_0111 = .ldVxDt 3 ∧ decode 0b1111_0011_0000_1010 = .ldVxK 3 ∧
    decode 0b1111_0011_0001_0101 = .ldDtVx 3 ∧ decode 0b1111_0011_0001_1000 = .ldStVx 3 ∧
    decode 0b1111_0011_0001_1110 = .addI 3 := by decide
theorem test_decode_classF_high : decode 0b1111_0011_0010_1001 = .ldF 3 ∧ decode 0b1111_0011_0011_0011 = .ldB 3 ∧
    decode 0b1111_0011_0101_0101 = .storeRegs 3 ∧ decode 0b1111_0011_0110_0101 = .loadRegs 3 ∧
    decode 0b1111_0011_0111_0101 = .nopF 0x375 := by decide
theorem test_decode_nops : decode 0b0101_0001_0010_1111 = .nop5 0x12F ∧ decode 0b1001_0001_0010_0001 = .nop9 0x121 := by
  decide
theorem test_decode_bytes : decodeBytes [0x8A, 0xB6, 0x33] = .ok (.shrReg 0xA 0xB, [0x33]) ∧
    decodeBytes [0x8A] = .error .truncated := ⟨rfl, rfl⟩
theorem test_decode_table_word : decodeTableWord 16 0x220E = some (.call 0x20E) := by decide

/-! Fetch (vectors 2.1). -/

theorem test_fetch_last_word : gives { s0 with pc := 0xFFE } 0x1200 (fun t => t.pc == 0x200) = true := by decide
theorem test_fetch_straddles : faults { s0 with pc := 0xFFF } 0x1200 (.addressOutOfRange 0xFFF) = true := by decide
theorem test_fetch_no_wrap : faults { s0 with pc := 0xFFFF } 0x1200 (.addressOutOfRange 0xFFFF) = true := by decide
/-- Bytes `00 61 2A 00` at `0x200`, `pc` odd. -/
theorem test_fetch_odd : gives { State.wm s0 0x200 [0x00] with pc := 0x201 } 0x612A
    (fun t => t.pc == 0x203 && t.reg 1 == 0x2A) = true := by decide

/-! Control transfer (vectors 2.2). -/

theorem test_jp : gives s0 0x1FFF (fun t => t.pc == 0xFFF) = true := by decide
theorem test_call_last_slot : gives { s0 with sp := 15 } 0x2ABC
    (fun t => t.pc == 0xABC && t.sp == 16 && t.stack[15] == 0x0202) = true := by decide
theorem test_call_overflow : faults { s0 with sp := 16 } 0x2ABC (.stackOverflow 0x200) = true := by decide
theorem test_ret_full : gives { s0 with sp := 16, stack := s0.stack.set 15 0x0FFE } 0x0AEE
    (fun t => t.pc == 0xFFE && t.sp == 15) = true := by decide
theorem test_ret_underflow : faults s0 0x00EE (.stackUnderflow 0x200) = true := by decide
theorem test_jpV0_no_mask : gives (State.wv s0 0 0xFF) 0xBFFF (fun t => t.pc == 0x10FE) = true := by decide
theorem test_jpV0_is_v0 : gives (State.wv s0 2 0x55) 0xB2F0 (fun t => t.pc == 0x2F0) = true := by decide
theorem test_seImm_taken : gives (State.wv s0 0xA 0x7F) 0x3A7F (fun t => t.pc == 0x204) = true := by decide
theorem test_seImm_not_taken : gives (State.wv s0 0xA 0x80) 0x3A7F (fun t => t.pc == 0x202) = true := by decide
theorem test_sneImm_not_taken : gives (State.wv s0 0xA 0x7F) 0x4A7F (fun t => t.pc == 0x202) = true := by decide
theorem test_sneImm_taken : gives (State.wv s0 0xA 0x80) 0x4A7F (fun t => t.pc == 0x204) = true := by decide
theorem test_seReg_taken : gives (State.wv (State.wv s0 1 9) 2 9) 0x5120 (fun t => t.pc == 0x204) = true := by decide
theorem test_seReg_not_taken : gives (State.wv (State.wv s0 1 9) 2 0xA) 0x5120 (fun t => t.pc == 0x202) = true := by
  decide
theorem test_sneReg_taken : gives (State.wv (State.wv s0 1 9) 2 0xA) 0x9120 (fun t => t.pc == 0x204) = true := by decide
theorem test_sneReg_same : gives (State.wv s0 3 0x42) 0x9330 (fun t => t.pc == 0x202) = true := by decide

/-! Register file and ALU (vectors 2.3). -/

theorem test_ldImm_vf : gives s0 0x6FFF (fun t => t.reg 0xF == 0xFF && t.pc == 0x202) = true := by decide
theorem test_addImm_wraps : gives (State.wv (State.wv s0 0 0xFF) 0xF 7) 0x7001
    (fun t => t.reg 0 == 0 && t.reg 0xF == 7) = true := by decide
theorem test_addImm_vf : gives (State.wv s0 0xF 0xFE) 0x7F03 (fun t => t.reg 0xF == 1) = true := by decide
theorem test_ldReg : gives (State.wv s0 1 0x77) 0x8F10 (fun t => t.reg 0xF == 0x77) = true := by decide
theorem test_or_flag_wins : gives (State.wv (State.wv s0 0xF 1) 1 2) 0x8F11 (fun t => t.reg 0xF == 0) = true := by decide
theorem test_or_reads_old_vf : gives (State.wv (State.wv s0 0xF 1) 1 2) 0x81F1
    (fun t => t.reg 1 == 3 && t.reg 0xF == 0) = true := by decide
theorem test_and_clears_vf : gives (State.wv (State.wv s0 1 0xFF) 0xF 9) 0x8122
    (fun t => t.reg 1 == 0 && t.reg 0xF == 0) = true := by decide
theorem test_xor_self : gives (State.wv (State.wv s0 1 0x5A) 0xF 1) 0x8113
    (fun t => t.reg 1 == 0 && t.reg 0xF == 0) = true := by decide
theorem test_addReg_no_carry : gives (State.wv (State.wv (State.wv s0 1 0x7F) 2 0x80) 0xF 1) 0x8124
    (fun t => t.reg 1 == 0xFF && t.reg 0xF == 0) = true := by decide
theorem test_addReg_carry_wins : gives (State.wv (State.wv s0 0xF 0xF0) 1 0x20) 0x8F14
    (fun t => t.reg 0xF == 1) = true := by decide
theorem test_subReg_borrow : gives (State.wv (State.wv s0 2 1) 0xF 1) 0x8125
    (fun t => t.reg 1 == 0xFF && t.reg 0xF == 0) = true := by decide
theorem test_subReg_equal : gives (State.wv (State.wv s0 1 5) 2 5) 0x8125
    (fun t => t.reg 1 == 0 && t.reg 0xF == 1) = true := by decide
theorem test_subnReg_borrow : gives (State.wv (State.wv (State.wv s0 1 5) 2 3) 0xF 1) 0x8127
    (fun t => t.reg 1 == 0xFE && t.reg 0xF == 0) = true := by decide
theorem test_subnReg : gives (State.wv (State.wv s0 1 3) 2 5) 0x8127
    (fun t => t.reg 1 == 2 && t.reg 0xF == 1) = true := by decide
theorem test_shr_takes_vy : gives (State.wv (State.wv s0 1 0xAA) 2 0xFF) 0x8126
    (fun t => t.reg 1 == 0x7F && t.reg 2 == 0xFF && t.reg 0xF == 1) = true := by decide
theorem test_shr_flag_wins : gives (State.wv (State.wv s0 1 2) 0xF 0x55) 0x8F16 (fun t => t.reg 0xF == 0) = true := by
  decide
theorem test_shl_truncates : gives (State.wv (State.wv s0 1 0x11) 2 0x80) 0x812E
    (fun t => t.reg 1 == 0 && t.reg 0xF == 1) = true := by decide
theorem test_shl_no_flag : gives (State.wv (State.wv s0 2 0x40) 0xF 1) 0x812E
    (fun t => t.reg 1 == 0x80 && t.reg 0xF == 0) = true := by decide
theorem test_rnd : event (State.wm s0 0x200 [0xCF, 0x0F]) (.cycle 0xFE) (fun t => t.reg 0xF == 0x0E && t.pc == 0x202) =
    true := by decide
/-- Mask 0 gives 0 whatever the free draw is. -/
theorem test_rnd_mask_zero : gives (State.wv s0 1 0x33) 0xC100 (fun t => t.pc == 0x202 && t.rndCount == 1) = true := by
  decide

/-! Index and memory (vectors 2.4). -/

theorem test_ldI : gives { s0 with index := 0x1234 } 0xA000 (fun t => t.index == 0) = true := by decide
theorem test_addI_wraps : gives (State.wv (State.wv { s0 with index := 0xFFFF } 1 1) 0xF 7) 0xF11E
    (fun t => t.index == 0 && t.reg 0xF == 7) = true := by decide
theorem test_addI_no_mask : gives (State.wv { s0 with index := 0x0FFF } 1 1) 0xF11E (fun t => t.index == 0x1000) = true := by
  decide
theorem test_ldF : gives (State.wv s0 1 0xF) 0xF129 (fun t => t.index == 0x4B) = true := by decide
theorem test_ldF_above_15 : gives (State.wv s0 1 0xFF) 0xF129 (fun t => t.index == 0x4FB) = true := by decide
theorem test_ldB : gives (State.wv { s0 with index := 0x300 } 1 0x7B) 0xF133
    (fun t => t.readByte 0x300 == 1 && t.readByte 0x301 == 2 && t.readByte 0x302 == 3 && t.index == 0x300) = true := by
  decide
theorem test_ldB_not_wrapped : faults (State.wv { s0 with index := 0xFFFF } 1 0x64) 0xF133 (.addressOutOfRange 0x10001) =
    true := by decide
theorem test_storeRegs : gives (State.wv (State.wv (State.wv { s0 with index := 0x300 } 0 0x11) 2 0x33) 3 0x44) 0xF255
    (fun t => t.readByte 0x300 == 0x11 && t.readByte 0x302 == 0x33 && t.readByte 0x303 == 0 && t.index == 0x303) =
    true := by decide
theorem test_storeRegs_range : faults { s0 with index := 0xFF1 } 0xFF55 (.addressOutOfRange 0x1000) = true := by decide
theorem test_loadRegs : gives (State.wv (State.wm { s0 with index := 0x300 } 0x300 [0xDE, 0xAD, 0xBE, 0xEF]) 3 0x77) 0xF265
    (fun t => t.reg 0 == 0xDE && t.reg 1 == 0xAD && t.reg 2 == 0xBE && t.reg 3 == 0x77 && t.index == 0x303) = true := by
  decide
theorem test_loadRegs_range : faults { s0 with index := 0x1000 } 0xF065 (.addressOutOfRange 0x1000) = true := by decide

/-! Display (vectors 2.5). -/

theorem test_cls : gives { State.wp (State.wp s0 0 0) 31 63 with displayReady := true } 0x03E0
    (fun t => t.pixel 0 0 == 0 && t.pixel 31 63 == 0 && t.displayReady) = true := by decide
/-- `C0` at row 0 over the pixel (0,1): one bit collides and erases, one sets. -/
theorem test_drw_collides : gives (State.wp (State.wm { s0 with index := 0x300 } 0x300 [0xC0]) 0 1) 0xD011
    (fun t => onIn t [0, 1] (List.range 10) == [(0, 0)] && t.reg 0xF == 1 && t.displayReady) = true := by decide
/-- `FF` at column 60: clipped on the right, nothing at column 0. -/
theorem test_drw_clips : gives (State.wv (State.wm { s0 with index := 0x300 } 0x300 [0xFF]) 0 0x3C) 0xD011
    (fun t => onIn t [0, 1] [0, 1, 58, 59, 60, 61, 62, 63] == [(0, 60), (0, 61), (0, 62), (0, 63)] && t.reg 0xF == 0) =
    true := by decide

/-! Keypad and timers (vectors 2.6). -/

theorem test_skp_key15 : gives (State.wv { s0 with keypadMask := 0x8000 } 1 0xF) 0xE19E (fun t => t.pc == 0x204) = true := by
  decide
theorem test_skp_above_15 : gives (State.wv { s0 with keypadMask := 0xFFFF } 1 0x10) 0xE19E (fun t => t.pc == 0x202) =
    true := by decide
theorem test_sknp_key15 : gives (State.wv { s0 with keypadMask := 0x8000 } 1 0xF) 0xE1A1 (fun t => t.pc == 0x202) = true := by
  decide
theorem test_sknp_above_15 : gives (State.wv { s0 with keypadMask := 0xFFFF } 1 0x10) 0xE1A1 (fun t => t.pc == 0x204) =
    true := by decide
theorem test_key_wait_press : gives { s0 with keypadMask := 0x0120 } 0xF10A
    (fun t => t.pc == 0x200 && t.keyAwaited == some 5) = true := by decide
theorem test_key_wait_release : gives { s0 with keypadMask := 0x7FFF, keyAwaited := some 15 } 0xF10A
    (fun t => t.pc == 0x202 && t.reg 1 == 0xF && t.keyAwaited == none) = true := by decide
theorem test_ldVxDt : gives { s0 with delayTimer := 0x3C } 0xFF07 (fun t => t.reg 0xF == 0x3C) = true := by decide
theorem test_ldDtVx : gives (State.wv s0 1 0xFF) 0xF115 (fun t => t.delayTimer == 0xFF && t.soundTimer == 0) = true := by
  decide
theorem test_ldStVx : gives (State.wv s0 1 1) 0xF118 (fun t => t.soundTimer == 1 && t.tone && t.delayTimer == 0) = true := by
  decide

/-! No-ops (vectors 2.7). -/

/-- The vectors' start state: no skip though `V1 = V2`, no stall though the latch is set and a key is awaited. -/
def busy : State :=
  { State.wv (State.wv (State.wv s0 1 9) 2 9) 0xF 1 with
    keypadMask := 0xFFFF, displayReady := true, keyAwaited := some 3 }

theorem test_nop0 : gives busy 0x00FB (fun t => t.pc == 0x202 && t.reg 0xF == 1) = true := by decide
theorem test_nop5 : gives busy 0x5121 (fun t => t.pc == 0x202 && t.reg 0xF == 1) = true := by decide
theorem test_nop8 : gives busy 0x8128 (fun t => t.pc == 0x202 && t.reg 0xF == 1) = true := by decide
theorem test_nop9 : gives (State.wv busy 2 8) 0x9121 (fun t => t.pc == 0x202 && t.reg 0xF == 1) = true := by decide
theorem test_nopE : gives busy 0xE19F (fun t => t.pc == 0x202 && t.reg 0xF == 1) = true := by decide
theorem test_nopF : gives busy 0xF130 (fun t => t.pc == 0x202 && t.keyAwaited == some 3) = true := by decide

/-! Host events (vectors 2.6, 2.8). -/

theorem test_tick : event { s0 with delayTimer := 255, soundTimer := 1 } .tick
    (fun t => t.delayTimer == 254 && t.soundTimer == 0 && !t.tone) = true := by decide
theorem test_tick_stays : event s0 .tick (fun t => t.delayTimer == 0 && t.soundTimer == 0) = true := by decide
theorem test_set_keys : event { s0 with keypadMask := 0xFFFF } (.setKeys 0x0120) (fun t => t.keypadMask == 0x0120) = true := by
  decide
theorem test_consume_frame : event { s0 with displayReady := true } .consumeFrame (fun t => !t.displayReady) = true := by
  decide
theorem test_reset : event busy .reset (fun t => t.pc == 0x200 && t.reg 1 == 0 && t.keyAwaited == none && t.justReset) =
    true := by decide
theorem test_load : event s0 (.load [0xA2, 0x34]) (fun t => t.readWord 0x200 == 0xA234 && t.pc == 0x200) = true := by decide

/-! Witnesses: for every obligation with hypotheses, and for each of its clauses, a state and operands that meet them. -/

/-- With a word of two bytes at an address. -/
def at2 (s : State) (a : Nat) (hi lo : Byte) : State := { s with memory := Memory.writeBytes s.memory a [hi, lo] }

theorem witness_DecodeUndoesEncode : Instr.wellFormed (.nop8 0xFFF) = true := by decide

theorem witness_StepRunsTheDecodedInstruction :
    ∃ (s : State) (i : Instr), s.pc.toNat < 0xFFF ∧
      decodeBytes [s.readByte s.pc.toNat, s.readByte (s.pc.toNat + 1)] = .ok (i, []) ∧ s.schedule = [] :=
  ⟨at2 { s0 with pc := 0xFFE } 0xFFE 0x12 0x00, .jp 0x200, by decide, rfl, rfl⟩

theorem witness_StepRunsTheDecodedInstruction_cycle :
    ∃ (s : State) (i : Instr) (d : Draw), s.pc.toNat < 0xFFF ∧
      decodeBytes [s.readByte s.pc.toNat, s.readByte (s.pc.toNat + 1)] = .ok (i, []) ∧ s.schedule = [.cycle d] :=
  ⟨at2 { s0 with schedule := [.cycle 255] } 0x200 0xC1 0xFF, .rnd 1 0xFF, 255, by decide, rfl, rfl⟩

theorem witness_FetchPastTheEndFaults : ∃ s : State, s.schedule = [] ∧ 0xFFF ≤ s.pc.toNat :=
  ⟨{ s0 with pc := 0xFFF }, rfl, by decide⟩

theorem witness_ResetLeavesTheStatedValues : font[79]? = some 0x80 ∧ resetByte 79 = 0x80 ∧ resetByte 80 = 0 := by decide

theorem witness_ResetEventRestoresEverything : ∃ s : State, s.schedule = [.reset] ∧ s ≠ s0 :=
  ⟨{ busy with schedule := [.reset] }, rfl, fun h => by have := congrArg State.keypadMask h; revert this; decide⟩

theorem witness_LoadCopiesTheProgram :
    ∃ (s : State) (bytes : List Byte), s.schedule = [.load bytes] ∧ s.justReset = true ∧ bytes.length = 3583 ∧
      bytes.length < 3584 :=
  ⟨{ s0 with schedule := [.load (List.replicate 3583 0xAA)] }, _, rfl, rfl, List.length_replicate,
    by rw [List.length_replicate]; decide⟩

theorem witness_LoadIsRejectedOrRefused_rejected :
    ∃ (s : State) (bytes : List Byte), s.schedule = [.load bytes] ∧ s.justReset = true ∧ 3584 ≤ bytes.length :=
  ⟨{ s0 with schedule := [.load (List.replicate 3584 0xAA)] }, _, rfl, rfl, by rw [List.length_replicate]⟩

theorem witness_LoadIsRejectedOrRefused_refused :
    ∃ (s : State) (bytes : List Byte), s.schedule = [.load bytes] ∧ s.justReset = false :=
  ⟨{ s0 with schedule := [.load []], justReset := false }, _, rfl, rfl⟩

theorem witness_TickCountsBothTimersDown : ∃ s : State, s.schedule = [.tick] ∧ s.delayTimer = 255 ∧ s.soundTimer = 0 :=
  ⟨{ s0 with schedule := [.tick], delayTimer := 255 }, rfl, rfl, rfl⟩

theorem witness_SetKeysReplacesTheMask : ∃ s : State, s.schedule = [.setKeys 0xFFFF] :=
  ⟨{ s0 with schedule := [.setKeys 0xFFFF] }, rfl⟩

theorem witness_ConsumeFrameClearsTheLatch : ∃ s : State, s.schedule = [.consumeFrame] ∧ s.displayReady = true :=
  ⟨{ s0 with schedule := [.consumeFrame], displayReady := true }, rfl, rfl⟩

theorem witness_FrameIsRowMajor : ∃ r c : Nat, r < 32 ∧ c < 64 ∧ r * 64 + c = 2047 := ⟨31, 63, by decide⟩

theorem witness_CallPushesThePostFetchPc : ∃ s u : State, s.sp.val = 15 ∧ s.sp.val < 16 ∧ u.sp = 16 :=
  ⟨{ s0 with sp := 15 }, { s0 with sp := 16 }, by decide⟩

theorem witness_ReturnPopsTheStack : ∃ s u w : State, s.sp.val = 16 ∧ 0 < s.sp.val ∧ 0 < u.sp.val ∧ u.sp.val = 1 ∧ w.sp = 0 :=
  ⟨{ s0 with sp := 16 }, { s0 with sp := 1 }, s0, by decide⟩

theorem witness_CallThenReturnRoundTrips :
    ∃ s : State, s.schedule = [] ∧ s.pc.toNat < 0xFFF ∧ (0xFFE : Addr12).toNat < 0xFFF ∧ s.sp.val < 16 ∧
      s.readWord s.pc.toNat = wordNNN 0x2 0xFFE ∧ s.readWord (0xFFE : Addr12).toNat = wordXKK 0x0 0xA 0xEE :=
  ⟨at2 (at2 { s0 with sp := 15 } 0x200 0x2F 0xFE) 0xFFE 0x0A 0xEE, by decide⟩

theorem witness_SelfJumpRests : ∃ s : State, s.schedule = [] ∧ s.restsAt 0xFFE :=
  ⟨at2 { s0 with pc := 0xFFE } 0xFFE 0x1F 0xFE, rfl, by unfold State.restsAt; decide⟩

theorem witness_RandomByteIsMasked : ∃ s u t : State, s.rndInput = some 255 ∧ u.rndInput = none ∧
    exec (.nop0 0) s = .next t ∧ ∀ x kk, Instr.nop0 0 ≠ .rnd x kk :=
  ⟨{ s0 with rndInput := some 255 }, s0, _, rfl, rfl, rfl, fun _ _ h => by cases h⟩

theorem witness_BcdStoresThreeDigits : ∃ s : State, s.base + 2 = 0xFFF ∧ s.base + 2 ≤ 0xFFF :=
  ⟨{ s0 with index := 0xFFD }, by decide⟩

theorem witness_StoreWritesTheRegisterRange : ∃ s u : State,
    s.base + (0xF : Nibble).toNat ≤ 0xFFF ∧ s.base = 0xFF0 ∧ u.base + (0 : Nibble).toNat ≤ 0xFFF ∧ u.base = 0xFFF :=
  ⟨{ s0 with index := 0xFF0 }, { s0 with index := 0xFFF }, by decide⟩

theorem witness_LoadReadsTheRegisterRange : ∃ s u : State,
    s.base + (0xF : Nibble).toNat ≤ 0xFFF ∧ s.base = 0xFF0 ∧ u.base + (0 : Nibble).toNat ≤ 0xFFF ∧ u.base = 0xFFF :=
  ⟨{ s0 with index := 0xFF0 }, { s0 with index := 0xFFF }, by decide⟩

/-- The three clauses, at their first faulting index. -/
theorem witness_RangeFaultsBeforeAnyEffect : ∃ s u w : State,
    0xFFF < s.index.toNat + 2 ∧ s.index = 0xFFE ∧ 0xFFF < u.index.toNat + (0xF : Nibble).toNat ∧ u.index = 0xFF1 ∧
    w.displayReady = false ∧ 0 < (1 : Nibble).toNat ∧ 0xFFF < w.index.toNat + (1 : Nibble).toNat - 1 ∧ w.index = 0x1000 :=
  ⟨{ s0 with index := 0xFFE }, { s0 with index := 0xFF1 }, { s0 with index := 0x1000 }, by decide⟩

theorem witness_StoreIsSeenByTheNextFetch : ∃ s : State,
    s.schedule = [] ∧ s.pc.toNat < 0xFFD ∧ 1 ≤ (1 : Nibble).toNat ∧ s.index = s.pc + 2 ∧
      s.index.toNat + (1 : Nibble).toNat ≤ 0xFFF ∧ s.readWord s.pc.toNat = wordXKK 0xF 1 0x55 :=
  ⟨at2 { s0 with pc := 0xFFC, index := 0xFFE } 0xFFC 0xF1 0x55, by decide⟩

theorem witness_DrawStallsWhileTheFrameWaits : busy.displayReady = true := rfl

theorem witness_DrawTogglesTheSpriteBits : ∃ s u : State,
    (s.displayReady = false ∧ (0 < (2 : Nibble).toNat → s.base + (2 : Nibble).toNat - 1 ≤ 0xFFF) ∧ s.base = 0xFFE) ∧
    (u.displayReady = false ∧ (0 < (0 : Nibble).toNat → u.base + (0 : Nibble).toNat - 1 ≤ 0xFFF) ∧ u.base = 0xFFFF) :=
  ⟨{ s0 with index := 0xFFE }, { s0 with index := 0xFFFF }, by decide⟩

/-- The glyph of 0 drawn twice at the origin; the origin registers are not `VF`. -/
theorem witness_DrawingTwiceRestoresThePixels : ∃ s t u : State,
    s.displayReady = false ∧ exec (.drw 0 1 5) s = .next t ∧ exec (.drw 0 1 5) { t with displayReady := false } = .next u ∧
      (t.reg 0).toNat % 64 = (s.reg 0).toNat % 64 ∧ (t.reg 1).toNat % 32 = (s.reg 1).toNat % 32 := by
  refine ⟨s0, s0.drawSprite 0 1 5, State.drawSprite { s0.drawSprite 0 1 5 with displayReady := false } 0 1 5, rfl, ?_, ?_,
    ?_, ?_⟩
  · exact (execDrw_running 0 1 5 rfl).trans (accessRange_ok (by decide))
  · exact (execDrw_running 0 1 5 rfl).trans (accessRange_ok (fun _ => by decide))
  · rw [State.drawSprite_reg s0 0 1 5 (by decide)]
  · rw [State.drawSprite_reg s0 0 1 5 (by decide)]

theorem witness_OnlyConsumeFrameLetsADrawPass : ∃ es : List Event,
    busy.displayReady = true ∧ es.length = 4 ∧ ∀ e ∈ es, e ≠ .consumeFrame ∧ e ≠ .reset :=
  ⟨[.cycle 0, .tick, .load [0xD0], .setKeys 1], by decide⟩

/-- Each clause of the key wait: nothing held, key 15 held, awaited and held, awaited and released. -/
theorem witness_KeyWaitTakesAPressAndARelease : ∃ s u w r : State,
    (s.keyAwaited = none ∧ s.keypadMask = 0) ∧ (u.keyAwaited = none ∧ u.keypadMask ≠ 0) ∧
    (w.keyAwaited = some 0xF ∧ w.keypadMask.getLsbD (0xF : Nibble).toNat = true) ∧
    (r.keyAwaited = some 0xF ∧ r.keypadMask.getLsbD (0xF : Nibble).toNat = false) :=
  ⟨s0, { s0 with keypadMask := 0x8000 }, { s0 with keypadMask := 0x8000, keyAwaited := some 0xF },
    { s0 with keypadMask := 0x7FFF, keyAwaited := some 0xF }, by decide⟩

theorem witness_KeyWaitTakesAPressAndARelease_others : ∃ (i : Instr) (e : Event) (t u : State),
    (exec i busy = .next t ∧ ∀ x, i ≠ .ldVxK x) ∧ issue e busy = .next u ∧ (∀ d, e ≠ .cycle d) ∧ e ≠ .reset :=
  ⟨.nop0 0, .setKeys 0, _, _, ⟨rfl, fun _ h => by cases h⟩, rfl, (fun _ h => by cases h), by decide⟩

theorem witness_TimersChangeOnlyByTheirInstructions : ∃ (i : Instr) (s t : State), exec i s = .next t ∧
    (∀ x, i ≠ .ldDtVx x) ∧ ∀ x, i ≠ .ldStVx x :=
  ⟨.ldVxDt 1, s0, _, rfl, (fun _ h => by cases h), fun _ h => by cases h⟩

theorem witness_NoInstructionReadsTheSoundTimer : ∃ (i j : Instr) (t : State), (exec i s0 = .next t ∧ ∃ x, i = .ldStVx x) ∧
    exec j s0 = .next s0 ∧ ∀ x, j ≠ .ldStVx x :=
  ⟨.ldStVx 1, .nop0 0, _, ⟨rfl, 1, rfl⟩, rfl, fun _ h => by cases h⟩

/-- Unlisted memory at the last fetchable address holds the word `0x0000`. -/
theorem witness_UnmatchedWordsOnlyAdvancePc : ∃ s : State, s.schedule = [] ∧ s.pc.toNat < 0xFFF ∧ s.pc = 0xFFE ∧
    ∀ r ∈ definedRows, r.selects (s.readWord s.pc.toNat) = false :=
  ⟨{ s0 with pc := 0xFFE }, by decide⟩

theorem witness_NoopRowsCompleteUnchanged :
    (lowKk 0x1E1 ≠ 0xE0 ∧ lowKk 0x1E1 ≠ 0xEE) ∧ lowN 0x121 ≠ 0 ∧
    lowN 0x12D ∈ [(0x8 : Nibble), 0x9, 0xA, 0xB, 0xC, 0xD, 0xF] ∧ lowN 0x12F ≠ 0 ∧
    (lowKk 0x1A0 ≠ 0x9E ∧ lowKk 0x1A0 ≠ 0xA1) ∧
    lowKk 0x10B ∉ [(0x07 : Byte), 0x0A, 0x15, 0x18, 0x1E, 0x29, 0x33, 0x55, 0x65] := by decide

theorem witness_StepKeepsMemoryCanonical : ∃ s t : State, MemoryCanonical s ∧ step s = .next t :=
  ⟨s0, _, by unfold MemoryCanonical; decide, rfl⟩

theorem witness_StepKeepsPixelsTwoValued : ∃ s t : State, PixelsTwoValued s ∧ step s = .next t :=
  ⟨s0, _, fun r c => Or.inl (Display.pixel_clear r c), rfl⟩

theorem witness_StepKeepsPcBounded : ∃ s t : State, PcBounded s ∧ step s = .next t :=
  ⟨s0, _, by unfold PcBounded; decide, rfl⟩

/-- A key is awaited, and the word at `pc` is the `Fx0A` that waits for it. -/
theorem witness_StepKeepsTheKeyWaitAtPc : ∃ s t : State, KeyWaitAtPc s ∧ s.keyAwaited = some 5 ∧ step s = .next t :=
  ⟨at2 { s0 with keyAwaited := some 5, justReset := false } 0x200 0xF1 0x0A, _,
    ⟨fun _ => ⟨by decide, 1, by decide⟩, fun h => by cases h⟩, rfl, rfl⟩

/-- Every row of the table of faults has a state that meets it. -/
theorem witness_CycleFaultsExactlyAsListed :
    CycleFaults { s0 with pc := 0xFFF } (.addressOutOfRange 0xFFF) ∧
    CycleFaults (at2 { s0 with sp := 16 } 0x200 0x22 0x00) (.stackOverflow 0x200) ∧
    CycleFaults (at2 s0 0x200 0x00 0xEE) (.stackUnderflow 0x200) ∧
    CycleFaults (at2 { s0 with index := 0xFFE } 0x200 0xF1 0x33) (.addressOutOfRange 0x1000) ∧
    CycleFaults (at2 { s0 with index := 0xFF1 } 0x200 0xFF 0x55) (.addressOutOfRange 0x1000) ∧
    CycleFaults (at2 { s0 with index := 0xFF1 } 0x200 0xFF 0x65) (.addressOutOfRange 0x1000) ∧
    CycleFaults (at2 { s0 with index := 0xFFE } 0x200 0xD0 0x13) (.addressOutOfRange 0x1000) :=
  ⟨.fetch (by decide), .call 0x200 (by decide) (by decide) rfl, .ret 0 (by decide) (by decide) rfl,
    .bcd 1 (by decide) (by decide) (by decide), .store 0xF (by decide) (by decide) (by decide),
    .load 0xF (by decide) (by decide) (by decide), .draw 0 1 3 (by decide) (by decide) rfl (by decide) (by decide)⟩

theorem witness_AFaultLastsUntilReset : ∃ (s : State) (rnd : Option Draw) (f : Fault) (es : List Event),
    cycle rnd s = .fault f ∧ es.length = 4 ∧ ∀ e ∈ es, running e = true :=
  ⟨at2 { s0 with sp := 16 } 0x200 0x22 0x00, none, _, [.tick, .cycle 7, .consumeFrame, .setKeys 1], rfl, rfl, by decide⟩

theorem witness_OnlyTheNamedRegistersChange : ∃ t : State, exec (.addReg 1 2) s0 = .next t ∧ mayWrite (.addReg 1 2) 3 = false :=
  ⟨_, rfl, by decide⟩

/-- A store, and the first byte past the bytes it stores. -/
theorem witness_OnlyStoresChangeMemory : ∃ (s t : State) (a : Nat), exec (.ldB 1) s = .next t ∧ a = s.base + 3 ∧
    ¬ storesTo s (.ldB 1) a :=
  ⟨{ s0 with index := 0x300 }, _, 0x303, rfl, rfl, by unfold storesTo; decide⟩

/-- An instruction that meets the premise of every clause. -/
theorem witness_OnlyTheListedInstructionsWrite : ∃ (i : Instr) (t : State), exec i s0 = .next t ∧
    (∀ x y n, i ≠ .drw x y n) ∧ (∀ g, i ≠ .cls g) ∧ (∀ nnn, i ≠ .call nnn) ∧ (∀ g, i ≠ .ret g) ∧
    mayWriteIndex i = false ∧ mayWritePc i = false :=
  ⟨.addReg 1 2, _, rfl, (fun _ _ _ h => by cases h), (fun _ h => by cases h),
    (fun _ h => by cases h), (fun _ h => by cases h), rfl, rfl⟩

/-- The three stalled sub-states, the last one with its key held and with it released. -/
theorem witness_SubstatesStallAsStated : ∃ s u w r : State,
    (s.pc.toNat < 0xFFF ∧ s.substate = .drawStall) ∧ (u.pc.toNat < 0xFFF ∧ u.substate = .keyWaitPhase1) ∧
    (w.pc.toNat < 0xFFF ∧ w.substate = .keyWaitPhase2 0xF ∧ w.keypadMask.getLsbD (0xF : Nibble).toNat = true) ∧
    (r.pc.toNat < 0xFFF ∧ r.substate = .keyWaitPhase2 0xF ∧ r.keypadMask.getLsbD (0xF : Nibble).toNat = false) :=
  ⟨at2 { s0 with displayReady := true } 0x200 0xD0 0x11, at2 s0 0x200 0xF1 0x0A,
    at2 { s0 with keyAwaited := some 0xF, keypadMask := 0x8000 } 0x200 0xF1 0x0A,
    at2 { s0 with keyAwaited := some 0xF, keypadMask := 0x7FFF } 0x200 0xF1 0x0A, by decide⟩

end Sys2Proof.Tests
end

namespace Sys2Proof.Proofs

open Sys2Proof Sys2Proof.Machine

/-! The step of a `CYCLE` (spec 00_scope.md R7, 30_encoding.md R90). -/

/-- Decoding bytes joins the first two, the byte at the lower address as bits 15:8 (R63). -/
theorem decodeBytes_readByte_pair (s : State) (a : Nat) :
    decodeBytes [s.readByte a, s.readByte (a + 1)] = .ok (decode (s.readWord a), []) := rfl

/-- What `decodeBytes` finds in the two bytes at an address is the decoding of the word there. -/
theorem decode_readWord_of_decodeBytes {s : State} {a : Nat} {i : Instr}
    (h : decodeBytes [s.readByte a, s.readByte (a + 1)] = .ok (i, [])) : decode (s.readWord a) = i := by
  rw [decodeBytes_readByte_pair] at h
  injection h with h
  exact congrArg Prod.fst h

/-- A scheduled `CYCLE` leaves the schedule and runs with its own argument (R7, log 7). -/
theorem step_scheduled_cycle {s : State} {d : Draw} {es : List Event} (h : s.schedule = .cycle d :: es) :
    step s = cycle (some d) { s with schedule := es } :=
  step_event h

/-- Settles O5: a step with nothing scheduled, or with a `CYCLE` next, is `cycle`, and below `0xFFF` that dispatches the
word at `pc`, which is the instruction the two bytes decode to. -/
theorem stepRunsTheDecodedInstruction : Obligations.StepRunsTheDecodedInstruction := by
  intro s i hpc hbytes
  have hi : decode (s.readWord s.pc.toNat) = i := decode_readWord_of_decodeBytes hbytes
  subst hi
  constructor
  · intro hs
    rw [step_cycle hs]
    exact cycle_ok none hpc
  · intro d es hs
    rw [step_scheduled_cycle hs]
    exact cycle_ok (some d) hpc

end Sys2Proof.Proofs

namespace Sys2Proof.Proofs

open Sys2Proof Sys2Proof.Machine Sys2Proof.Safety

/-! What an instruction writes (spec 10_state.md R34). -/

/-- What an instruction that answers a next state leaves as it was, of all elements but the general registers and the
model's own fields (`exec_next_own`). A field's default proof is that the instruction does not write the element. -/
structure ExecFrame (i : Instr) (s t : State) : Prop where
  /-- Nothing writes the keypad mask. -/
  keypadMask : t.keypadMask = s.keypadMask := by intros; rfl
  /-- `Dxyn` sets the latch. -/
  displayReady : (∀ x y n, i ≠ .drw x y n) → t.displayReady = s.displayReady := by intros; rfl
  /-- `Dxyn` and `00E0` write pixels. -/
  display : (∀ x y n, i ≠ .drw x y n) → (∀ g, i ≠ .cls g) → t.display = s.display := by intros; rfl
  /-- `2nnn` writes a slot. -/
  stack : (∀ nnn, i ≠ .call nnn) → t.stack = s.stack := by intros; rfl
  /-- `2nnn` and `00EE` move the stack pointer. -/
  sp : (∀ nnn, i ≠ .call nnn) → (∀ g, i ≠ .ret g) → t.sp = s.sp := by intros; rfl
  /-- The instructions that write `index`. -/
  index : mayWriteIndex i = false → t.index = s.index := by intros; rfl
  /-- The instructions that write `pc` after the fetch advance. -/
  pc : mayWritePc i = false → t.pc = s.pc := by intros; rfl
  /-- `Fx15` sets the delay timer. -/
  delayTimer : (∀ x, i ≠ .ldDtVx x) → t.delayTimer = s.delayTimer := by intros; rfl
  /-- `Fx18` sets the sound timer. -/
  soundTimer : (∀ x, i ≠ .ldStVx x) → t.soundTimer = s.soundTimer := by intros; rfl
  /-- `Fx0A` notes and forgets the awaited key. -/
  keyAwaited : (∀ x, i ≠ .ldVxK x) → t.keyAwaited = s.keyAwaited := by intros; rfl
  /-- `Fx33` and `Fx55` store. -/
  memory : (∀ x, i ≠ .ldB x) → (∀ x, i ≠ .storeRegs x) → t.memory = s.memory := by intros; rfl

/-- Every instruction keeps its frame: a case names the elements its instruction does write. -/
theorem exec_next_frame {i : Instr} {s t : State} (h : exec i s = .next t) : ExecFrame i s t := by
  cases i with
  | cls g => cases h; exact { display := fun _ hi => absurd rfl (hi g) }
  | jp | jpV0 => cases h; exact { pc := nofun }
  | seImm | sneImm | seReg | sneReg | skp | sknp => cases h; rw [State.skipIf_eq]; exact { pc := nofun }
  | call nnn =>
    obtain ⟨_, rfl⟩ := execCall_next h
    exact { pc := nofun, stack := fun hi => absurd rfl (hi nnn), sp := fun hi => absurd rfl (hi nnn) }
  | ret g =>
    obtain ⟨_, rfl⟩ := execRet_next (ign := g) h
    exact { pc := nofun, sp := fun _ hi => absurd rfl (hi g) }
  | ldI | addI | ldF => cases h; exact { index := nofun }
  | drw x y n =>
    rcases execDrw_next h with ⟨_, rfl⟩ | ⟨_, _, rfl⟩
    · exact { pc := nofun }
    · exact { displayReady := fun hi => absurd rfl (hi x y n), display := fun hi => absurd rfl (hi x y n) }
  | ldVxK x =>
    have awaited {p : Prop} (hi : ∀ x', Instr.ldVxK x ≠ .ldVxK x') : p := absurd rfl (hi x)
    rcases execLdVxK_next h with ⟨_, rfl⟩ | ⟨k, _, ⟨_, rfl⟩ | ⟨_, rfl⟩⟩
    · exact { pc := nofun, keyAwaited := awaited }
    · exact { pc := nofun }
    · exact { keyAwaited := awaited }
  | ldDtVx x => cases h; exact { delayTimer := fun hi => absurd rfl (hi x) }
  | ldStVx x => cases h; exact { soundTimer := fun hi => absurd rfl (hi x) }
  | ldB x =>
    obtain ⟨_, rfl⟩ := accessRange_next.1 h
    exact { memory := fun hi => absurd rfl (hi x) }
  | storeRegs x =>
    obtain ⟨_, rfl⟩ := accessRange_next.1 h
    exact { index := nofun, memory := fun _ hi => absurd rfl (hi x) }
  | loadRegs x =>
    obtain ⟨_, rfl⟩ := accessRange_next.1 h
    exact { index := nofun }
  | _ => cases h; exact {}

/-- Memory after an instruction: as before, or bytes written upwards from `index`, inside memory, where the instruction
stores (R69, R70). -/
theorem exec_next_memory {i : Instr} {s t : State} (h : exec i s = .next t) :
    t.memory = s.memory ∨
    ∃ bs : List Byte, s.base + bs.length ≤ Config.memSize ∧ t.memory = Memory.writeBytes s.memory s.base bs ∧
      ∀ a, s.base ≤ a ∧ a < s.base + bs.length → storesTo s i a := by
  cases i with
  | ldB x =>
    obtain ⟨hr, rfl⟩ := accessRange_next.1 h
    have hin : s.base + 3 ≤ 4096 := by omega
    exact Or.inr ⟨bcdDigits (s.reg x), hin, rfl, fun _ ha => ha⟩
  | storeRegs x =>
    obtain ⟨hr, rfl⟩ := accessRange_next.1 h
    have hlen : (s.regsBelow (rangeLen x)).length = rangeLen x :=
      s.regsBelow_length (by have := x.isLt; unfold rangeLen; omega)
    have hin : s.base + rangeLen x ≤ 4096 := by
      have := hr (Nat.succ_pos _)
      omega
    exact Or.inr ⟨s.regsBelow (rangeLen x), by rwa [hlen], rfl, fun a ha => by rwa [hlen] at ha⟩
  | _ => exact Or.inl ((exec_next_frame h).memory nofun nofun)

/-! What a step can do (spec 00_scope.md R7). -/

/-- What a step makes of a state: one event of R7. The event leaves some schedule, which no rule reads. -/
inductive StepEffect (s : State) : State → Prop
  /-- `RESET`. -/
  | reset (es : List Event) : StepEffect s (resetEvent { s with schedule := es })
  /-- A `LOAD` directly after `RESET` that is not rejected (R246). -/
  | load (es : List Event) (bytes : List Byte) (hj : s.justReset = true) (hl : bytes.length < Config.progLimit) :
      StepEffect s
        { s with memory := Memory.writeBytes s.memory Config.progBase bytes, justReset := false, schedule := es }
  /-- A `CYCLE`: one instruction, after the fetch advance (R90). -/
  | instr (es : List Event) (rnd : Option Draw) (t : State) (hpc : s.pc.toNat < 0xFFF)
      (h : exec (decode (s.readWord s.pc.toNat)) ({ s with schedule := es }.advance rnd) = .next t) : StepEffect s t
  /-- `TICK`, `SET_KEYS` or `CONSUME_FRAME`: nothing but the timers, the mask and the latch. -/
  | host (es : List Event) (dt st : Byte) (mask : Word) (ready : Bool) :
      StepEffect s
        { s with
          delayTimer := dt, soundTimer := st, keypadMask := mask, displayReady := ready, justReset := false,
          schedule := es }

/-- Every step that answers a next state has one of these effects. -/
theorem step_next_effect {s t : State} (h : step s = .next t) : StepEffect s t := by
  rcases step_next_cases h with ⟨hs, h⟩ | ⟨e, es, hs, h⟩
  · obtain ⟨hpc, h⟩ := cycle_next h
    exact .instr [] none t hpc (hs ▸ h)
  · cases e with
    | reset => cases h; exact .reset es
    | load bytes =>
      obtain ⟨hj, hl, rfl⟩ := loadProgram_next.1 h
      exact .load es bytes hj hl
    | cycle d =>
      obtain ⟨hpc, h⟩ := cycle_next h
      exact .instr es (some d) t hpc h
    | tick | setKeys | consumeFrame => cases h; exact .host es ..

/-! Memory stays canonical (log 4). -/

/-- A program that `LOAD` accepts ends inside memory (R246). -/
theorem program_fits {len : Nat} (h : len < Config.progLimit) : Config.progBase + len ≤ Config.memSize := by
  simp only [Config.progLimit, Config.progBase, Config.memSize] at h ⊢
  omega

/-- Settles O50: a store lies inside memory by the range check, a program by the limit of `LOAD`. -/
theorem stepKeepsMemoryCanonical : Obligations.StepKeepsMemoryCanonical := by
  intro s t hs h
  cases step_next_effect h with
  | reset => exact Memory.wf_nil
  | load es bytes _ hl => exact Memory.wf_writeBytes hs (program_fits hl)
  | instr es rnd _ _ h =>
    unfold MemoryCanonical
    rcases exec_next_memory h with hm | ⟨bs, hlen, hm, -⟩
    · exact hm ▸ hs
    · exact hm ▸ Memory.wf_writeBytes hs hlen
  | host => exact hs

/-! Pixels stay two-valued (R35). -/

/-- Toggling one of the two pixel values gives the other. -/
theorem twoValued_xor_pixelOn {p : Pixel} (h : p = 0x00000000 ∨ p = 0xFFFFFFFF) :
    p ^^^ pixelOn = 0x00000000 ∨ p ^^^ pixelOn = 0xFFFFFFFF := by
  rcases h with rfl | rfl <;> simp [pixelOn]

/-- Pixels are read from the display alone. -/
theorem pixelsTwoValued_congr {s t : State} (h : t.display = s.display) (hs : PixelsTwoValued s) :
    PixelsTwoValued t := by
  intro r c
  simp only [State.pixel, h]
  exact hs r c

theorem pixelsTwoValued_drawSprite {s : State} (x y n : Nibble) (hs : PixelsTwoValued s) :
    PixelsTwoValued (s.drawSprite x y n) := by
  intro r c
  rw [State.drawSprite_pixel]
  split
  · exact twoValued_xor_pixelOn (hs r c)
  · exact hs r c

theorem pixelsTwoValued_of_clear {s : State} (h : s.display = Display.clear) : PixelsTwoValued s := by
  intro r c
  simp [State.pixel, h]

theorem exec_keeps_pixelsTwoValued {i : Instr} {s t : State} (hs : PixelsTwoValued s) (h : exec i s = .next t) :
    PixelsTwoValued t := by
  cases i with
  | cls g => cases h; exact pixelsTwoValued_of_clear rfl
  | drw x y n =>
    rcases execDrw_next h with ⟨_, rfl⟩ | ⟨_, _, rfl⟩
    · exact hs
    · exact pixelsTwoValued_drawSprite x y n hs
  | _ => exact pixelsTwoValued_congr ((exec_next_frame h).display nofun nofun) hs

/-- Settles O51: only the clear and the draw write pixels, and a draw toggles. -/
theorem stepKeepsPixelsTwoValued : Obligations.StepKeepsPixelsTwoValued := by
  intro s t hs h
  cases step_next_effect h with
  | reset => exact pixelsTwoValued_of_clear rfl
  | load => exact hs
  | instr es rnd _ _ h =>
    refine exec_keeps_pixelsTwoValued ?_ h
    exact hs
  | host => exact hs

/-! `pc` and the return addresses stay bounded (R23). -/

/-- An address field reaches no further than the last address. -/
theorem zext16_addr_le (nnn : Addr12) : (zext16 nnn).toNat ≤ 0xFFF := by
  have := nnn.isLt
  rw [BitVec.toNat_setWidth]
  omega

/-- The target of `Bnnn` is at most `0xFFF + 0xFF`, so that it does not wrap (D4). -/
theorem zext16_addr_add_byte_le (nnn : Addr12) (b : Byte) : (zext16 nnn + zext16 b).toNat ≤ 0x10FE := by
  have := nnn.isLt
  have := b.isLt
  simp only [BitVec.toNat_add, BitVec.toNat_setWidth]
  omega

/-- Neither the fetch advance nor a skip wraps (R90, R129). -/
theorem toNat_add_two {pc : Word} (h : pc.toNat ≤ 0x1000) : (pc + 2).toNat = pc.toNat + 2 := by
  have h2 : (2 : Word).toNat = 2 := rfl
  rw [BitVec.toNat_add, h2]
  omega

/-- An instruction begun with `pc` in the range the fetch advance leaves it in, and return addresses bounded. -/
structure FetchedBounded (s : State) : Prop where
  /-- The instruction's address does not wrap. -/
  two_le_pc : 2 ≤ s.pc.toNat
  /-- The instruction lies inside memory. -/
  pc_le : s.pc.toNat ≤ 0x1000
  /-- Every slot holds such a `pc`. -/
  stack_le : ∀ i : Fin 16, (s.stack[i]).toNat ≤ 0x1000

theorem fetchedBounded_advance {s : State} (rnd : Option Draw) (hs : PcBounded s) (hpc : s.pc.toNat < 0xFFF) :
    FetchedBounded (s.advance rnd) where
  two_le_pc := by rw [State.advance_pc, toNat_add_two (by omega)]; omega
  pc_le := by rw [State.advance_pc, toNat_add_two (by omega)]; omega
  stack_le := hs.2

theorem FetchedBounded.stall_pc_le {s : State} (hs : FetchedBounded s) : (s.pc - 2).toNat ≤ 0x10FE := by
  have hpc := hs.pc_le
  rw [BitVec.toNat_sub_of_le (show (2 : Word) ≤ s.pc from hs.two_le_pc)]
  omega

theorem FetchedBounded.skipIf_pc_le {s : State} (hs : FetchedBounded s) (c : Bool) :
    (s.skipIf c).pc.toNat ≤ 0x10FE := by
  have hpc := hs.pc_le
  cases c with
  | false => exact hpc.trans (by decide)
  | true =>
    have hskip : (s.skipIf true).pc.toNat = s.pc.toNat + 2 := toNat_add_two hpc
    omega

theorem exec_keeps_pc_le {i : Instr} {s t : State} (hs : FetchedBounded s) (h : exec i s = .next t) :
    t.pc.toNat ≤ 0x10FE := by
  have hpc : s.pc.toNat ≤ 0x10FE := hs.pc_le.trans (by decide)
  cases i with
  | jp nnn => cases h; exact (zext16_addr_le nnn).trans (by decide)
  | jpV0 nnn => cases h; exact zext16_addr_add_byte_le nnn _
  | seImm | sneImm | seReg | sneReg | skp | sknp => cases h; exact hs.skipIf_pc_le _
  | call nnn => obtain ⟨_, rfl⟩ := execCall_next h; exact (zext16_addr_le nnn).trans (by decide)
  | ret g =>
    obtain ⟨hsp, rfl⟩ := execRet_next (ign := g) h
    exact (hs.stack_le ⟨s.sp.val - 1, by omega⟩).trans (by decide)
  | drw x y n =>
    rcases execDrw_next h with ⟨_, rfl⟩ | ⟨_, _, rfl⟩
    · exact hs.stall_pc_le
    · exact hpc
  | ldVxK x =>
    rcases execLdVxK_next h with ⟨_, rfl⟩ | ⟨k, _, ⟨_, rfl⟩ | ⟨_, rfl⟩⟩
    · exact hs.stall_pc_le
    · exact hs.stall_pc_le
    · exact hpc
  | _ => rw [(exec_next_frame h).pc rfl]; exact hpc

theorem exec_keeps_stack_le {i : Instr} {s t : State} (hs : FetchedBounded s) (h : exec i s = .next t) (j : Fin 16) :
    (t.stack[j]).toNat ≤ 0x1000 := by
  cases i with
  | call nnn =>
    obtain ⟨hsp, rfl⟩ := execCall_next h
    simp only [Fin.getElem_fin, Vector.getElem_set]
    split
    · exact hs.pc_le
    · exact hs.stack_le j
  | _ => rw [(exec_next_frame h).stack nofun]; exact hs.stack_le j

/-- The bounds of R23 at reset: the slots are the zeros the model chose (log 6). -/
theorem pcBounded_of_reset {s : State} (hpc : s.pc = State.reset.pc) (hst : s.stack = State.reset.stack) :
    PcBounded s := by
  unfold PcBounded
  rw [hpc, hst]
  decide

/-- Settles O52: a fetched instruction leaves `pc` at most `0x1000`, and what it writes over it or pushes is bounded. -/
theorem stepKeepsPcBounded : Obligations.StepKeepsPcBounded := by
  intro s t hs h
  cases step_next_effect h with
  | reset => exact pcBounded_of_reset rfl rfl
  | load => exact hs
  | instr es rnd _ hpc h =>
    have hf : FetchedBounded ({ s with schedule := es }.advance rnd) := fetchedBounded_advance rnd hs hpc
    exact ⟨exec_keeps_pc_le hf h, exec_keeps_stack_le hf h⟩
  | host => exact hs

/-! The key wait stays at `pc` (D23). -/

/-- A state with no key awaited meets the invariant. -/
theorem keyWaitAtPc_of_none {s : State} (h : s.keyAwaited = none) : KeyWaitAtPc s :=
  ⟨fun hk => absurd h hk, fun _ => h⟩

/-- A state directly after another event than `RESET`, at an `Fx0A`, meets the invariant, whatever is awaited. -/
theorem keyWaitAtPc_of_ldVxK {s : State} {x : Nibble} (hj : s.justReset = false) (hpc : s.pc.toNat < 0xFFF)
    (hw : decode (s.readWord s.pc.toNat) = .ldVxK x) : KeyWaitAtPc s :=
  ⟨fun _ => ⟨hpc, x, hw⟩, fun h => absurd (hj.symm.trans h) (by decide)⟩

/-- An `Fx0A` that answers a next state awaits no key after it, or is again the instruction at `pc`. -/
theorem execLdVxK_advance_next {x : Nibble} {s t : State} {rnd : Option Draw}
    (h : execLdVxK x (s.advance rnd) = .next t) :
    t.keyAwaited = none ∨ (t.pc = s.pc ∧ t.memory = s.memory) := by
  have hstall : s.pc + 2 - 2 = s.pc := BitVec.add_sub_cancel ..
  rcases execLdVxK_next h with ⟨_, rfl⟩ | ⟨k, _, ⟨_, rfl⟩ | ⟨_, rfl⟩⟩
  · exact Or.inr ⟨hstall, rfl⟩
  · exact Or.inr ⟨hstall, rfl⟩
  · exact Or.inl rfl

theorem instr_keeps_keyWaitAtPc {s t : State} {rnd : Option Draw} (hs : KeyWaitAtPc s) (hpc : s.pc.toNat < 0xFFF)
    (h : exec (decode (s.readWord s.pc.toNat)) (s.advance rnd) = .next t) : KeyWaitAtPc t := by
  obtain ⟨hj, -, -⟩ := exec_next_own h
  by_cases hk : ∃ x, decode (s.readWord s.pc.toNat) = .ldVxK x
  · obtain ⟨x, hw⟩ := hk
    rcases execLdVxK_advance_next (hw ▸ h) with hn | ⟨hp, hm⟩
    · exact keyWaitAtPc_of_none hn
    · refine keyWaitAtPc_of_ldVxK hj (hp ▸ hpc) (x := x) ?_
      rw [hp, State.readWord_congr hm]
      exact hw
  · refine keyWaitAtPc_of_none ?_
    rw [(exec_next_frame h).keyAwaited fun x hw => hk ⟨x, hw⟩]
    by_contra hn
    exact hk (hs.1 hn).2

/-- Settles O53: no key is awaited when `LOAD` can write memory, an `Fx0A` that still waits has put `pc` back, and at
any other instruction none is awaited. -/
theorem stepKeepsTheKeyWaitAtPc : Obligations.StepKeepsTheKeyWaitAtPc := by
  intro s t hs h
  cases step_next_effect h with
  | reset => exact keyWaitAtPc_of_none rfl
  | load es bytes hj => exact keyWaitAtPc_of_none (hs.2 hj)
  | instr es rnd _ hpc h => exact instr_keeps_keyWaitAtPc (s := { s with schedule := es }) hs hpc h
  | host => exact ⟨hs.1, nofun⟩

/-! The access matrix over all instructions (R34). -/

/-- Settles O46: the frame of the instructions, and the tone by its definition. -/
theorem timersChangeOnlyByTheirInstructions : Obligations.TimersChangeOnlyByTheirInstructions := by
  refine ⟨fun i s t h => ⟨(exec_next_frame h).delayTimer, (exec_next_frame h).soundTimer⟩, fun s => ?_⟩
  rw [State.tone, decide_eq_true_eq, Nat.pos_iff_ne_zero, ne_eq, ne_eq, BitVec.toNat_eq]
  rfl

/-- A register that a result and a flag are not written to. -/
theorem reg_setRegFlag_of_ne {s : State} {x r : Nibble} {b f : Byte} (h : (r == x || r == 0xF) = false) :
    (s.setRegFlag x b f).reg r = s.reg r := by
  obtain ⟨hx, hf⟩ : r ≠ x ∧ r ≠ 0xF := by simpa using h
  rw [State.reg_setRegFlag, if_neg hf, if_neg hx]

/-- A register that a byte is not written to. -/
theorem reg_setReg_of_ne {s : State} {x r : Nibble} {b : Byte} (h : (r == x) = false) :
    (s.setReg x b).reg r = s.reg r := by
  rw [State.reg_setReg, if_neg (by simpa using h)]

/-- Loading `V[0]` to `V[x]` leaves the registers above `x` (R155). -/
theorem reg_loadRange_of_lt {s t : State} {x r : Nibble}
    (ht : t.v = loadRange s.memory s.base s.v (rangeLen x)) (h : x.toNat < r.toNat) : t.reg r = s.reg r := by
  have := x.isLt
  simp only [State.reg, ht]
  rw [loadRange_get _ _ _ _ (by unfold rangeLen; omega) r.isLt, if_neg (by unfold rangeLen; omega)]

/-- Settles O57: an instruction writes one register, a result and the flag, the flag of a draw, a range, or none. -/
theorem onlyTheNamedRegistersChange : Obligations.OnlyTheNamedRegistersChange := by
  intro i s t r h hr
  cases i with
  | ldImm | addImm | ldReg | ldVxDt => cases h; exact reg_setReg_of_ne hr
  | rnd => cases h; exact reg_setReg_of_ne (s := s.consumeDraw) hr
  | orReg | andReg | xorReg | addReg | subReg | shrReg | subnReg | shlReg => cases h; exact reg_setRegFlag_of_ne hr
  | drw x y n =>
    rcases execDrw_next h with ⟨_, rfl⟩ | ⟨_, _, rfl⟩
    · rfl
    · exact State.drawSprite_reg s x y n (by simpa [mayWrite] using hr)
  | ldVxK x =>
    rcases execLdVxK_next h with ⟨_, rfl⟩ | ⟨k, _, ⟨_, rfl⟩ | ⟨_, rfl⟩⟩
    · rfl
    · rfl
    · exact reg_setReg_of_ne (s := { s with keyAwaited := none }) hr
  | loadRegs x =>
    obtain ⟨_, rfl⟩ := accessRange_next.1 h
    exact reg_loadRange_of_lt rfl (by simpa [mayWrite] using hr)
  | call nnn => obtain ⟨_, rfl⟩ := execCall_next h; rfl
  | ret g => obtain ⟨_, rfl⟩ := execRet_next (ign := g) h; rfl
  | ldB | storeRegs => obtain ⟨_, rfl⟩ := accessRange_next.1 h; rfl
  | seImm | sneImm | seReg | sneReg | skp | sknp => cases h; rw [State.skipIf_eq]; rfl
  | _ => cases h; rfl

/-- Settles O58: memory is as before, or bytes were written where the instruction stores. -/
theorem onlyStoresChangeMemory : Obligations.OnlyStoresChangeMemory := by
  intro i s t a h ha
  rcases exec_next_memory h with hm | ⟨bs, -, hm, hstore⟩
  · exact State.readByte_congr hm a
  · rw [State.readByte, hm, Memory.read_writeBytes, dif_neg fun hin => ha (hstore a hin)]
    rfl

/-- Settles O59: the frame of the instructions. -/
theorem onlyTheListedInstructionsWrite : Obligations.OnlyTheListedInstructionsWrite := by
  intro i s t h
  have hf := exec_next_frame h
  exact ⟨hf.keypadMask, hf.displayReady, hf.display, hf.stack, hf.sp, hf.index, hf.pc⟩

/-! Nothing reads the sound timer (R27). -/

/-- The state with another sound timer. -/
def withSoundTimer (b : Byte) (s : State) : State := { s with soundTimer := b }

/-- A result with its next state changed. -/
def mapNext (f : State → State) : Result → Result
  | .next t => .next (f t)
  | .fault e => .fault e
  | .refused e => .refused e

theorem skipIf_withSoundTimer (s : State) (b : Byte) (c : Bool) :
    (withSoundTimer b s).skipIf c = withSoundTimer b (s.skipIf c) := by
  cases c <;> rfl

/-- The range check does not look at the state it may answer. -/
theorem accessRange_mapNext (f : State → State) {base len : Nat} {t u : State} (hu : u = f t) :
    accessRange base len u = mapNext f (accessRange base len t) := by
  subst hu
  unfold accessRange raise
  split <;> rfl

/-- To show that a result is another one with its next state changed, say what the other one is. -/
theorem eq_mapNext {f : State → State} {p q r : Result} (hq : q = r) (hp : p = mapNext f r) : p = mapNext f q :=
  hq ▸ hp

/-- Every instruction but `Fx18` answers the same with another sound timer, and keeps it. -/
theorem exec_withSoundTimer {i : Instr} (hi : ∀ x, i ≠ .ldStVx x) (s : State) (b : Byte) :
    exec i (withSoundTimer b s) = mapNext (withSoundTimer b) (exec i s) := by
  cases i with
  | seImm | sneImm | seReg | sneReg | skp | sknp => exact congrArg Host.Outcome.next (skipIf_withSoundTimer s b _)
  | call nnn =>
    by_cases hs : s.sp.val < 16
    · exact eq_mapNext (execCall_ok nnn hs) (execCall_ok nnn (s := withSoundTimer b s) hs)
    · exact eq_mapNext (execCall_full nnn hs) (execCall_full nnn hs)
  | ret g =>
    by_cases hs : 0 < s.sp.val
    · exact eq_mapNext (execRet_ok g hs) (execRet_ok g (s := withSoundTimer b s) hs)
    · exact eq_mapNext (execRet_empty g hs) (execRet_empty g hs)
  | drw x y n =>
    cases hr : s.displayReady with
    | true => exact eq_mapNext (execDrw_stalled x y n hr) (execDrw_stalled x y n hr)
    | false =>
      exact eq_mapNext (execDrw_running x y n hr)
        ((execDrw_running (s := withSoundTimer b s) x y n hr).trans (accessRange_mapNext (withSoundTimer b) rfl))
  | ldVxK x =>
    cases hk : s.keyAwaited with
    | none => exact eq_mapNext (execLdVxK_phase1 x hk) (execLdVxK_phase1 x hk)
    | some k =>
      cases hh : s.held k.toNat with
      | true => exact eq_mapNext (execLdVxK_held x hk hh) (execLdVxK_held x hk hh)
      | false => exact eq_mapNext (execLdVxK_released x hk hh) (execLdVxK_released x hk hh)
  | ldB | storeRegs | loadRegs => exact accessRange_mapNext (withSoundTimer b) rfl
  | ldStVx x => exact absurd rfl (hi x)
  | _ => rfl

/-- Settles O47: `Fx18` overwrites the sound timer; every other instruction carries it along. -/
theorem noInstructionReadsTheSoundTimer : Obligations.NoInstructionReadsTheSoundTimer := by
  intro i s b
  by_cases hi : ∃ x, i = .ldStVx x
  · obtain ⟨x, rfl⟩ := hi
    exact ⟨_, rfl, rfl, fun _ => rfl, fun hn => absurd rfl (hn x)⟩
  · have hb := exec_withSoundTimer (fun x hx => hi ⟨x, hx⟩) s b
    cases hres : exec i s with
    | next t =>
      rw [hres] at hb
      exact ⟨withSoundTimer b t, hb, rfl, fun hx => absurd hx hi, fun _ => rfl⟩
    | fault f => rw [hres] at hb; exact hb
    | refused r => rw [hres] at hb; exact hb

/-! The sub-states (R37). -/

/-- A word of class D is a draw (R95). -/
theorem decode_of_opClass_D {w : Word} (h : opClass w = 0xD) : decode w = .drw (fieldX w) (fieldY w) (fieldN w) := by
  simp [decode, h]

/-- A word of class F with discriminant `0x0A` is a key wait (R95). -/
theorem decode_of_keyWait {w : Word} (hc : opClass w = 0xF) (hk : fieldKk w = 0x0A) :
    decode w = .ldVxK (fieldX w) := by
  simp [decode, decodeClassF, hc, hk]

/-- What a sub-state says of the instruction at `pc` and of the latches. -/
def SubstateSays (s : State) : Substate → Prop
  | .running => True
  | .drawStall => (∃ x y n, decode (s.readWord s.pc.toNat) = .drw x y n) ∧ s.displayReady = true
  | .keyWaitPhase1 => (∃ x, decode (s.readWord s.pc.toNat) = .ldVxK x) ∧ s.keyAwaited = none
  | .keyWaitPhase2 k => (∃ x, decode (s.readWord s.pc.toNat) = .ldVxK x) ∧ s.keyAwaited = some k

theorem substateSays_substate (s : State) : SubstateSays s s.substate := by
  simp only [State.substate]
  split
  · next h => exact ⟨⟨_, _, _, decode_of_opClass_D h.1⟩, h.2⟩
  · split
    · next h =>
      have hw := decode_of_keyWait h.1 h.2
      cases hk : s.keyAwaited with
      | none => exact ⟨⟨_, hw⟩, hk⟩
      | some k => exact ⟨⟨_, hw⟩, hk⟩
    · trivial

/-- A stall undoes the fetch advance, and leaves what the `CYCLE` notes of itself (R9). -/
theorem stall_advance (s : State) (rnd : Option Draw) :
    (s.advance rnd).stall = { s with rndInput := rnd, justReset := false } := by
  unfold State.stall
  rw [State.instrAddr_advance]
  rfl

/-- Phase 1 of a key wait, from the state that begins the `CYCLE` (R172). -/
theorem execLdVxK_phase1_advance (x : Nibble) {s : State} (rnd : Option Draw) (h : s.keyAwaited = none) :
    execLdVxK x (s.advance rnd) =
      .next { s with keyAwaited := s.leastHeld, rndInput := rnd, justReset := false } := by
  rw [execLdVxK_phase1 (s := s.advance rnd) x h, State.advance_pc, BitVec.add_sub_cancel]
  rfl

/-- No key is found held exactly when the mask is 0 (R29). -/
theorem leastHeld_eq_none_iff {s : State} : s.leastHeld = none ↔ s.keypadMask = 0 := by
  rw [State.leastHeld_eq_none]
  constructor
  · intro h
    exact BitVec.eq_of_getLsbD_eq fun j hj => by simpa [State.held] using h j hj
  · intro h j _
    simp [State.held, h]

/-- Settles O60: the sub-state tells the instruction at `pc` and its case, and a stall undoes the fetch advance. -/
theorem substatesStallAsStated : Obligations.SubstatesStallAsStated := by
  intro s rnd hpc
  have hsays := substateSays_substate s
  refine ⟨fun hs => ?_, fun hs => ?_, fun k hs => ?_⟩ <;> rw [hs] at hsays
  · obtain ⟨⟨x, y, n, hw⟩, hready⟩ := hsays
    rw [cycle_ok rnd hpc, hw, ← stall_advance]
    exact execDrw_stalled x y n hready
  · obtain ⟨⟨x, hw⟩, hkey⟩ := hsays
    rw [cycle_ok rnd hpc, hw]
    exact ⟨_, execLdVxK_phase1_advance x rnd hkey, leastHeld_eq_none_iff, rfl⟩
  · obtain ⟨⟨x, hw⟩, hkey⟩ := hsays
    rw [cycle_ok rnd hpc, hw]
    refine ⟨fun hk => ?_, fun hk => ?_⟩
    · rw [← stall_advance]
      exact execLdVxK_held x hkey hk
    · exact ⟨_, x, execLdVxK_released (s := s.advance rnd) x hkey hk, rfl, fun r => State.reg_setReg _ x r _, rfl,
        fun _ => rfl⟩

/-! The frame the host reads (R28, R213). -/

/-- The frame is the display flattened, row by row. -/
theorem frame_eq_flatten (s : State) : s.frame = s.display.flatten.toList := by
  have h : s.display.flatten.toList = ((s.display.toArray.map Vector.toArray).toList.map Array.toList).flatten :=
    Array.toList_flatten
  rw [h, Array.toList_map, List.map_map]
  rfl

/-- Settles O15: an entry of a flattened vector of rows is found by the quotient and the rest of its place. -/
theorem frameIsRowMajor : Obligations.FrameIsRowMajor := by
  intro s
  rw [frame_eq_flatten]
  refine ⟨Vector.length_toList, fun r c hr hc => ?_⟩
  have hi : r * 64 + c < 32 * 64 := by omega
  have hrow : (r * 64 + c) / 64 = r := by omega
  have hcol : (r * 64 + c) % 64 = c := by omega
  rw [Vector.getElem?_toList, Vector.getElem?_eq_getElem hi, Vector.getElem_flatten hi]
  simp only [hrow, hcol, State.pixel, Display.pixel, hr, hc, and_self, dite_true]

/-! The state after `RESET` (R39). -/

/-- Settles O8: the registers, pixels and bytes for every index; the rest is written so. -/
theorem resetLeavesTheStatedValues : Obligations.ResetLeavesTheStatedValues := by
  refine ⟨rfl, rfl, rfl, rfl, fun i => ?_, rfl, Display.pixel_clear, rfl, rfl, rfl, fun a ha => ?_, fun a ha => ?_⟩
  · simp [State.reg, State.reset]
  · have hlen : font.length = 80 := rfl
    rw [List.getElem?_eq_getElem (by omega)]
    simp [State.readByte, State.reset, resetByte, hlen, ha]
  · have hlen : font.length = 80 := rfl
    simp [State.readByte, State.reset, resetByte, hlen, ha, memFill]

/-- Settles O54: the cases of `RESET` in the proofs that every step keeps the invariants. -/
theorem invariantsHoldAtReset : Obligations.InvariantsHoldAtReset :=
  ⟨Memory.wf_nil, pixelsTwoValued_of_clear rfl, pcBounded_of_reset rfl rfl, keyWaitAtPc_of_none rfl⟩

end Sys2Proof.Proofs

namespace Sys2Proof.Proofs

open Sys2Proof Sys2Proof.Machine

/-! Fetches and ranges that leave memory (spec 20_memory.md R63, R69). -/

/-- Settles O6: with nothing scheduled the step is a `CYCLE`, and its fetch reports `pc`. -/
theorem fetchPastTheEndFaults : Obligations.FetchPastTheEndFaults := by
  intro s hs hpc
  rw [step_cycle hs]
  exact cycle_fetch_fault none hpc

/-- The range `V[0]..V[x]` from `base` ends at `base + x`; past memory that address is reported (R69). -/
theorem accessRange_rangeLen_fault {base : Nat} {x : Nibble} (t : State) (h : 0xFFF < base + x.toNat) :
    accessRange base (rangeLen x) t = .fault (.addressOutOfRange (base + x.toNat)) :=
  accessRange_fault.2 ⟨Nat.succ_pos _, h, rfl⟩

/-- Settles O36: each of the four is the range check of the bytes it accesses, a draw once it does not stall. -/
theorem rangeFaultsBeforeAnyEffect : Obligations.RangeFaultsBeforeAnyEffect := by
  intro x y n s
  refine ⟨fun h => ?_, fun h => ⟨?_, ?_⟩, fun hready hn h => ?_⟩
  · exact accessRange_fault.2 ⟨by decide, h, rfl⟩
  · exact accessRange_rangeLen_fault _ h
  · exact accessRange_rangeLen_fault _ h
  · exact (execDrw_running x y n hready).trans (accessRange_fault.2 ⟨hn, h, rfl⟩)

/-! A store and the fetch after it (spec 20_memory.md R64, R72). -/

/-- The word of a store decodes to it (R95). -/
theorem decode_storeRegs_word (x : Nibble) : decode (wordXKK 0xF x 0x55) = .storeRegs x := by
  simp [decode, decodeClassF]

/-- The register file listed from `V[0]`, at a register below the `n` listed. -/
theorem regsBelow_getElem_nibble (s : State) {n : Nat} {r : Nibble} (h : r.toNat < (s.regsBelow n).length) :
    (s.regsBelow n)[r.toNat] = s.reg r :=
  s.regsBelow_get h r.isLt

/-- A store inside memory answers a next state, which keeps `pc` and holds `V[r]` at `base + r` (R154). -/
theorem exec_storeRegs_next {x : Nibble} {s : State} (h : s.base + x.toNat ≤ 0xFFF) :
    ∃ t, exec (.storeRegs x) s = .next t ∧ t.pc = s.pc ∧
      ∀ r : Nibble, r.toNat ≤ x.toNat → t.readByte (s.base + r.toNat) = s.reg r := by
  refine ⟨_, accessRange_ok fun _ => h, rfl, fun r hr => ?_⟩
  have hlen : (s.regsBelow (rangeLen x)).length = x.toNat + 1 := s.regsBelow_length x.isLt
  have hin : s.base ≤ s.base + r.toNat ∧ s.base + r.toNat < s.base + (s.regsBelow (rangeLen x)).length := by omega
  calc Memory.read (Memory.writeBytes s.memory s.base (s.regsBelow (rangeLen x))) (s.base + r.toNat)
      = (s.regsBelow (rangeLen x))[s.base + r.toNat - s.base] := by rw [Memory.read_writeBytes, dif_pos hin]
    _ = s.reg r := by simp only [Nat.add_sub_cancel_left, regsBelow_getElem_nibble]

/-- Settles O37: the store begins at the `pc` of after the fetch advance, where the next fetch reads `V[0]` and `V[1]`. -/
theorem storeIsSeenByTheNextFetch : Obligations.StoreIsSeenByTheNextFetch := by
  intro s x hs hpc hx hindex hrange hword
  obtain ⟨t, ht, htpc, hbytes⟩ := exec_storeRegs_next (s := s.advance none) hrange
  have hbase : t.pc.toNat = (s.advance none).base := by
    rw [htpc]
    exact congrArg BitVec.toNat hindex.symm
  have hnext : t.pc.toNat < 0xFFF := by
    rw [htpc, State.advance_pc, toNat_add_two (by omega)]
    omega
  have hread : t.readWord (s.advance none).base = s.reg 0 ++ s.reg 1 :=
    congrArg₂ (fun hi lo : Byte => hi ++ lo) (hbytes 0 (Nat.zero_le _)) (hbytes 1 hx)
  refine ⟨t, ?_, htpc, ?_⟩
  · rw [step_cycle hs, cycle_ok none (by omega), hword, decode_storeRegs_word]
    exact ht
  · rw [fetch_ok hnext, hbase, hread]

end Sys2Proof.Proofs

namespace Sys2Proof.Proofs

open Sys2Proof Sys2Proof.Machine Sys2Proof.Safety

/-! Decoding what was encoded (spec 30_encoding.md R93, R96). -/

/-- The check of a no-op row: its discriminant is none of those defined in its class (R97). -/
theorem notMem_of_not_contains {n : Nat} {ds : List (BitVec n)} {d : BitVec n} (h : (!ds.contains d) = true) :
    d ∉ ds := by
  simpa using h

/-- The class and the discriminant of an instruction's word select its branch of the dispatch (R95); for a no-op row,
well-formedness rules out the other branches of its class. -/
theorem decode_encode {i : Instr} (h : i.wellFormed = true) : decode (encode i) = i := by
  cases i with
  | cls | ret => simp [encode, decode, decodeClass0]
  | jp | call | seImm | sneImm | seReg | ldImm | addImm | sneReg | ldI | jpV0 | rnd | drw => simp [encode, decode]
  | ldReg | orReg | andReg | xorReg | addReg | subReg | shrReg | subnReg | shlReg =>
    simp [encode, decode, decodeClass8]
  | skp | sknp => simp [encode, decode, decodeClassE]
  | ldVxDt | ldVxK | ldDtVx | ldStVx | addI | ldF | ldB | storeRegs | loadRegs =>
    simp [encode, decode, decodeClassF]
  | nop0 =>
    have hk := notMem_of_not_contains h
    simp_all [encode, decode, decodeClass0, definedKk0]
  | nop5 | nop9 =>
    have hn := notMem_of_not_contains h
    simp_all [encode, decode, definedN59]
  | nop8 =>
    have hn := notMem_of_not_contains h
    simp_all [encode, decode, decodeClass8, definedN8]
  | nopE =>
    have hk := notMem_of_not_contains h
    simp_all [encode, decode, decodeClassE, definedKkE]
  | nopF =>
    have hk := notMem_of_not_contains h
    simp_all [encode, decode, decodeClassF, definedKkF]

/-- The bytes of a word hold the instruction it decodes to, and no byte is left (R63, R91). -/
theorem decodeBytes_wordBytes (w : Word) : decodeBytes (wordBytes w) = .ok (decode w, []) :=
  congrArg (fun v : Word => Except.ok (decode v, [])) (wordBytes_append w)

/-- Settles O2: the bytes of an instruction are those of its word, and its word decodes to it. -/
theorem decodeUndoesEncode : Obligations.DecodeUndoesEncode := by
  intro i h
  have hw := decode_encode h
  exact ⟨hw, by rw [encodeBytes, decodeBytes_wordBytes, hw]⟩

/-! Encoding what was decoded (R93, R97). -/

/-- The opcode map has the instruction, and the word is its word. -/
def IsInstrOf (w : Word) (i : Instr) : Prop := i.wellFormed = true ∧ encode i = w

/-- A branch of the dispatch (R95). -/
theorem IsInstrOf.ite {w : Word} {i j : Instr} {p : Prop} [Decidable p] (hi : p → IsInstrOf w i)
    (hj : ¬ p → IsInstrOf w j) : IsInstrOf w (if p then i else j) := by
  split
  · next h => exact hi h
  · next h => exact hj h

/-- A word is put together again from its class and `nnn` (R92). -/
theorem wordNNN_of_opClass {w : Word} {c : Nibble} (hc : opClass w = c) : wordNNN c (fieldNnn w) = w :=
  hc ▸ wordNNN_fields w

/-- A word is put together again from its class, `x` and `kk` (R92). -/
theorem wordXKK_of_opClass {w : Word} {c : Nibble} {kk : Byte} (hc : opClass w = c) (hk : fieldKk w = kk) :
    wordXKK c (fieldX w) kk = w :=
  hc ▸ hk ▸ wordXKK_fields w

/-- A word is put together again from its class, `x`, `y` and `n` (R92). -/
theorem wordXYN_of_opClass {w : Word} {c n : Nibble} (hc : opClass w = c) (hn : fieldN w = n) :
    wordXYN c (fieldX w) (fieldY w) n = w :=
  hc ▸ hn ▸ wordXYN_fields w

/-- The last branch of a class, here and in the classes below, is its no-op: none of the defined discriminants (R97). -/
theorem isInstrOf_decodeClass0 {w : Word} (hc : opClass w = 0x0) : IsInstrOf w (decodeClass0 w) := by
  unfold decodeClass0
  iterate 2 refine .ite (fun hk => ⟨rfl, wordXKK_of_opClass hc hk⟩) fun _ => ?_
  exact ⟨by simp_all [Instr.wellFormed, definedKk0, lowKk_fieldNnn], wordNNN_of_opClass hc⟩

theorem isInstrOf_decodeClass8 {w : Word} (hc : opClass w = 0x8) : IsInstrOf w (decodeClass8 w) := by
  unfold decodeClass8
  iterate 9 refine .ite (fun hn => ⟨rfl, wordXYN_of_opClass hc hn⟩) fun _ => ?_
  exact ⟨by simp_all [Instr.wellFormed, definedN8, lowN_fieldNnn], wordNNN_of_opClass hc⟩

theorem isInstrOf_decodeClassE {w : Word} (hc : opClass w = 0xE) : IsInstrOf w (decodeClassE w) := by
  unfold decodeClassE
  iterate 2 refine .ite (fun hk => ⟨rfl, wordXKK_of_opClass hc hk⟩) fun _ => ?_
  exact ⟨by simp_all [Instr.wellFormed, definedKkE, lowKk_fieldNnn], wordNNN_of_opClass hc⟩

theorem isInstrOf_decodeClassF {w : Word} (hc : opClass w = 0xF) : IsInstrOf w (decodeClassF w) := by
  unfold decodeClassF
  iterate 9 refine .ite (fun hk => ⟨rfl, wordXKK_of_opClass hc hk⟩) fun _ => ?_
  exact ⟨by simp_all [Instr.wellFormed, definedKkF, lowKk_fieldNnn], wordNNN_of_opClass hc⟩

/-- Class by class, as the dispatch goes (R95); the class that is left over is `0xF`. -/
theorem isInstrOf_decode (w : Word) : IsInstrOf w (decode w) := by
  unfold decode
  refine .ite isInstrOf_decodeClass0 fun _ => ?_
  iterate 2 refine .ite (fun hc => ⟨rfl, wordNNN_of_opClass hc⟩) fun _ => ?_
  iterate 2 refine .ite (fun hc => ⟨rfl, wordXKK_of_opClass hc rfl⟩) fun _ => ?_
  refine .ite (fun hc => .ite (fun hn => ⟨rfl, wordXYN_of_opClass hc hn⟩) fun hn => ?_) fun _ => ?_
  · exact ⟨by simpa [Instr.wellFormed, definedN59, lowN_fieldNnn] using hn, wordNNN_of_opClass hc⟩
  iterate 2 refine .ite (fun hc => ⟨rfl, wordXKK_of_opClass hc rfl⟩) fun _ => ?_
  refine .ite isInstrOf_decodeClass8 fun _ => ?_
  refine .ite (fun hc => .ite (fun hn => ⟨rfl, wordXYN_of_opClass hc hn⟩) fun hn => ?_) fun _ => ?_
  · exact ⟨by simpa [Instr.wellFormed, definedN59, lowN_fieldNnn] using hn, wordNNN_of_opClass hc⟩
  iterate 2 refine .ite (fun hc => ⟨rfl, wordNNN_of_opClass hc⟩) fun _ => ?_
  refine .ite (fun hc => ⟨rfl, wordXKK_of_opClass hc rfl⟩) fun _ => ?_
  refine .ite (fun hc => ⟨rfl, wordXYN_of_opClass hc rfl⟩) fun _ => ?_
  refine .ite isInstrOf_decodeClassE fun _ => ?_
  have hF : opClass w = 0xF := by
    have := nibble_cases (opClass w)
    simp_all
  exact isInstrOf_decodeClassF hF

/-- Settles O3: by the dispatch. -/
theorem encodeUndoesDecode : Obligations.EncodeUndoesDecode := isInstrOf_decode

/-! The rows of the opcode map (R96). -/

/-- The word of an instruction selects its row (R96, R97). -/
theorem selects_encode (i : Instr) : i.row.selects (encode i) = true := by
  cases i with
  | cls => exact Laws.Encoding.cls ..
  | ret => exact Laws.Encoding.ret ..
  | jp => exact Laws.Encoding.jp ..
  | call => exact Laws.Encoding.call ..
  | seImm => exact Laws.Encoding.seImm ..
  | sneImm => exact Laws.Encoding.sneImm ..
  | seReg => exact Laws.Encoding.seReg ..
  | ldImm => exact Laws.Encoding.ldImm ..
  | addImm => exact Laws.Encoding.addImm ..
  | ldReg => exact Laws.Encoding.ldReg ..
  | orReg => exact Laws.Encoding.orReg ..
  | andReg => exact Laws.Encoding.andReg ..
  | xorReg => exact Laws.Encoding.xorReg ..
  | addReg => exact Laws.Encoding.addReg ..
  | subReg => exact Laws.Encoding.subReg ..
  | shrReg => exact Laws.Encoding.shrReg ..
  | subnReg => exact Laws.Encoding.subnReg ..
  | shlReg => exact Laws.Encoding.shlReg ..
  | sneReg => exact Laws.Encoding.sneReg ..
  | ldI => exact Laws.Encoding.ldI ..
  | jpV0 => exact Laws.Encoding.jpV0 ..
  | rnd => exact Laws.Encoding.rnd ..
  | drw => exact Laws.Encoding.drw ..
  | skp => exact Laws.Encoding.skp ..
  | sknp => exact Laws.Encoding.sknp ..
  | ldVxDt => exact Laws.Encoding.ldVxDt ..
  | ldVxK => exact Laws.Encoding.ldVxK ..
  | ldDtVx => exact Laws.Encoding.ldDtVx ..
  | ldStVx => exact Laws.Encoding.ldStVx ..
  | addI => exact Laws.Encoding.addI ..
  | ldF => exact Laws.Encoding.ldF ..
  | ldB => exact Laws.Encoding.ldB ..
  | storeRegs => exact Laws.Encoding.storeRegs ..
  | loadRegs => exact Laws.Encoding.loadRegs ..
  | nop0 => exact Laws.Encoding.nop0 ..
  | nop5 => exact Laws.Encoding.nop5 ..
  | nop8 => exact Laws.Encoding.nop8 ..
  | nop9 => exact Laws.Encoding.nop9 ..
  | nopE => exact Laws.Encoding.nopE ..
  | nopF => exact Laws.Encoding.nopF ..

/-- Two rows whose matches differ in a bit that both masks keep share no word. -/
theorem not_selects_both {p q : TableRow} (h : p.val &&& q.mask ≠ q.val &&& p.mask) (w : Word) :
    ¬ (p.selects w = true ∧ q.selects w = true) := by
  rintro ⟨hp, hq⟩
  rw [TableRow.selects, beq_iff_eq] at hp hq
  rw [← hp, ← hq, BitVec.and_assoc, BitVec.and_assoc, BitVec.and_comm p.mask] at h
  exact h rfl

/-- The row of an instruction that is no no-op is a defined one. -/
theorem row_mem_definedRows {i : Instr} (h : i.isNop = false) : i.row ∈ definedRows := by
  cases i with
  | nop0 | nop5 | nop8 | nop9 | nopE | nopF => cases h
  | _ => simp [definedRows, Instr.row]

/-- Every row looks at the class, so the rows a word selects are of its class. -/
theorem opClass_of_selects {r : TableRow} {w : Word} (hr : r ∈ definedRows) (h : r.selects w = true) :
    opClass r.val = opClass w := by
  have hmask : r.mask &&& 0xF000 = 0xF000 := (show ∀ r ∈ definedRows, r.mask &&& 0xF000 = 0xF000 by decide) r hr
  rw [TableRow.selects, beq_iff_eq] at h
  have hw : w &&& 0xF000 = r.val &&& 0xF000 := by rw [← h, BitVec.and_assoc, hmask]
  rw [and_F000, and_F000] at hw
  exact (wordNNN_inj.1 hw).1.symm

/-- A row that looks at `kk` is selected by words with its `kk` alone. -/
theorem fieldKk_of_selects {r : TableRow} {w : Word} (hm : r.mask = 0xF0FF) (h : r.selects w = true) :
    fieldKk w = fieldKk r.val := by
  have hsel : TableRow.selects ⟨r.val, 0xF0FF⟩ w = true := hm ▸ h
  rw [selects_F0FF, decide_eq_true_eq] at hsel
  exact hsel.2.2

/-- A row that looks at `n` is selected by words with its `n` alone. -/
theorem fieldN_of_selects {r : TableRow} {w : Word} (hm : r.mask = 0xF00F) (h : r.selects w = true) :
    fieldN w = fieldN r.val := by
  have hsel : TableRow.selects ⟨r.val, 0xF00F⟩ w = true := hm ▸ h
  rw [selects_F00F, decide_eq_true_eq] at hsel
  exact hsel.2.2.2

/-- In a class whose rows look at `kk`, a word with none of the defined values selects no row. -/
theorem selects_eq_false_of_lowKk {c : Nibble} {ks : List Byte} {bits : Addr12} (hk : lowKk bits ∉ ks)
    (hrows : ∀ r ∈ definedRows, opClass r.val = c → r.mask = 0xF0FF ∧ fieldKk r.val ∈ ks) :
    ∀ r ∈ definedRows, r.selects (wordNNN c bits) = false := by
  intro r hr
  by_contra hsel
  rw [Bool.not_eq_false] at hsel
  obtain ⟨hmask, hmem⟩ := hrows r hr ((opClass_of_selects hr hsel).trans (opClass_wordNNN c bits))
  rw [← fieldKk_of_selects hmask hsel, fieldKk_wordNNN] at hmem
  exact hk hmem

/-- In a class whose rows look at `n`, a word with none of the defined values selects no row. -/
theorem selects_eq_false_of_lowN {c : Nibble} {ns : List Nibble} {bits : Addr12} (hn : lowN bits ∉ ns)
    (hrows : ∀ r ∈ definedRows, opClass r.val = c → r.mask = 0xF00F ∧ fieldN r.val ∈ ns) :
    ∀ r ∈ definedRows, r.selects (wordNNN c bits) = false := by
  intro r hr
  by_contra hsel
  rw [Bool.not_eq_false] at hsel
  obtain ⟨hmask, hmem⟩ := hrows r hr ((opClass_of_selects hr hsel).trans (opClass_wordNNN c bits))
  rw [← fieldN_of_selects hmask hsel, fieldN_wordNNN] at hmem
  exact hn hmem

/-- The word of a no-op selects no defined row (R97). -/
theorem selects_encode_nop {i : Instr} (hn : i.isNop = true) (hw : i.wellFormed = true) :
    ∀ r ∈ definedRows, r.selects (encode i) = false := by
  cases i with
  | nop0 | nopE | nopF => exact selects_eq_false_of_lowKk (notMem_of_not_contains hw) (by decide)
  | nop5 | nop8 | nop9 => exact selects_eq_false_of_lowN (notMem_of_not_contains hw) (by decide)
  | _ => cases hn

/-- Settles O4: a word is that of the instruction it decodes to, whose row is defined unless it is a no-op; and the
word of a no-op selects no defined row. -/
theorem decodeFollowsTheOpcodeMap : Obligations.DecodeFollowsTheOpcodeMap := by
  constructor
  · have hdiffer : definedRows.Pairwise (fun p q => p.val &&& q.mask ≠ q.val &&& p.mask) := by decide
    exact hdiffer.imp not_selects_both
  · intro w
    obtain ⟨hwf, hw⟩ := isInstrOf_decode w
    have hrow : (decode w).row.selects w = true := by simpa only [hw] using selects_encode (decode w)
    refine ⟨hrow, fun hnop => ?_, fun hnone => ?_⟩
    · simpa only [hw] using selects_encode_nop hnop hwf
    · by_contra hnop
      rw [Bool.not_eq_true] at hnop
      exact Bool.noConfusion (hrow.symm.trans (hnone _ (row_mem_definedRows hnop)))

/-! The faults of a `CYCLE` (spec 60_exceptions.md R202, R205). -/

/-- A call faults exactly when the stack is full (R200). -/
theorem execCall_fault {nnn : Addr12} {s : State} {f : Fault} :
    execCall nnn s = .fault f ↔ s.sp = 16 ∧ f = .stackOverflow s.instrAddr := by
  by_cases hs : s.sp.val < 16
  · rw [execCall_ok nnn hs]
    have : s.sp ≠ 16 := fun h => by simp [h] at hs
    simp [this]
  · rw [execCall_full nnn hs]
    have : s.sp = 16 := Fin.ext (by have := s.sp.isLt; simp; omega)
    simp [this, eq_comm]

/-- A return faults exactly when the stack is empty (R201). -/
theorem execRet_fault {g : Nibble} {s : State} {f : Fault} :
    execRet g s = .fault f ↔ s.sp = 0 ∧ f = .stackUnderflow s.instrAddr := by
  by_cases hs : 0 < s.sp.val
  · rw [execRet_ok g hs]
    have : s.sp ≠ 0 := fun h => by simp [h] at hs
    simp [this]
  · rw [execRet_empty g hs]
    have : s.sp = 0 := Fin.ext (by simp; omega)
    simp [this, eq_comm]

/-- A draw faults exactly when it does not stall and its range check fails (R161, R202). -/
theorem execDrw_fault {x y n : Nibble} {s : State} {f : Fault} :
    execDrw x y n s = .fault f ↔ s.displayReady = false ∧ 0 < n.toNat ∧ 0xFFF < s.base + n.toNat - 1 ∧
      f = .addressOutOfRange (s.base + n.toNat - 1) := by
  cases hr : s.displayReady with
  | true => simp [execDrw_stalled x y n hr]
  | false => simp [execDrw_running x y n hr, accessRange_fault]

/-- A key wait answers a next state (R172). -/
theorem execLdVxK_answers (x : Nibble) (s : State) : ∃ t, execLdVxK x s = .next t := by
  cases hk : s.keyAwaited with
  | none => exact ⟨_, execLdVxK_phase1 x hk⟩
  | some k =>
    cases hh : s.held k.toNat with
    | true => exact ⟨_, execLdVxK_held x hk hh⟩
    | false => exact ⟨_, execLdVxK_released x hk hh⟩

/-- Every instruction has a meaning. -/
theorem exec_not_refused (i : Instr) (s : State) (r : Refusal) : exec i s ≠ .refused r := by
  intro h
  cases i with
  | call nnn =>
    by_cases hs : s.sp.val < 16
    · cases (execCall_ok nnn hs).symm.trans h
    · cases (execCall_full nnn hs).symm.trans h
  | ret g =>
    by_cases hs : 0 < s.sp.val
    · cases (execRet_ok g hs).symm.trans h
    · cases (execRet_empty g hs).symm.trans h
  | drw x y n =>
    cases hr : s.displayReady with
    | true => cases (execDrw_stalled x y n hr).symm.trans h
    | false => exact accessRange_not_refused ((execDrw_running x y n hr).symm.trans h)
  | ldVxK x =>
    obtain ⟨t, ht⟩ := execLdVxK_answers x s
    cases ht.symm.trans h
  | ldB | storeRegs | loadRegs => exact accessRange_not_refused h
  | _ => cases h

/-- An instruction fetched inside memory faults only as listed. -/
theorem cycleFaults_of_exec {s : State} {rnd : Option Draw} {f : Fault} (hpc : s.pc.toNat < 0xFFF)
    (h : exec (decode (s.readWord s.pc.toNat)) (s.advance rnd) = .fault f) : CycleFaults s f := by
  generalize hi : decode (s.readWord s.pc.toNat) = i at h
  cases i with
  | call nnn =>
    obtain ⟨hs, rfl⟩ := execCall_fault.1 h
    exact s.instrAddr_advance rnd ▸ .call nnn hpc hi hs
  | ret g =>
    obtain ⟨hs, rfl⟩ := execRet_fault (g := g).1 h
    exact s.instrAddr_advance rnd ▸ .ret g hpc hi hs
  | ldB x =>
    obtain ⟨-, hr, rfl⟩ := accessRange_fault.1 h
    exact .bcd x hpc hi hr
  | storeRegs x =>
    obtain ⟨-, hr, rfl⟩ := accessRange_fault.1 h
    exact .store x hpc hi hr
  | loadRegs x =>
    obtain ⟨-, hr, rfl⟩ := accessRange_fault.1 h
    exact .load x hpc hi hr
  | drw x y n =>
    obtain ⟨hready, hn, hr, rfl⟩ := execDrw_fault.1 h
    exact .draw x y n hpc hi hready hn hr
  | ldVxK x =>
    obtain ⟨t, ht⟩ := execLdVxK_answers x (s.advance rnd)
    cases ht.symm.trans h
  | _ => cases h

/-- A `CYCLE` faults exactly as listed, whatever its argument. -/
theorem cycle_fault_iff {s : State} {rnd : Option Draw} {f : Fault} : cycle rnd s = .fault f ↔ CycleFaults s f := by
  constructor
  · intro h
    by_cases hpc : s.pc.toNat < 0xFFF
    · exact cycleFaults_of_exec hpc ((cycle_ok rnd hpc).symm.trans h)
    · have hpc : 0xFFF ≤ s.pc.toNat := Nat.le_of_not_lt hpc
      cases (cycle_fetch_fault rnd hpc).symm.trans h
      exact .fetch hpc
  · intro h
    cases h with
    | fetch h => exact cycle_fetch_fault rnd h
    | call nnn hpc hw hs =>
      rw [cycle_ok rnd hpc, hw]
      exact execCall_fault.2 ⟨hs, congrArg _ (s.instrAddr_advance rnd).symm⟩
    | ret g hpc hw hs =>
      rw [cycle_ok rnd hpc, hw]
      exact execRet_fault (g := g).2 ⟨hs, congrArg _ (s.instrAddr_advance rnd).symm⟩
    | bcd x hpc hw hi =>
      rw [cycle_ok rnd hpc, hw]
      exact accessRange_fault.2 ⟨by decide, hi, rfl⟩
    | store x hpc hw hi =>
      rw [cycle_ok rnd hpc, hw]
      exact accessRange_rangeLen_fault _ hi
    | load x hpc hw hi =>
      rw [cycle_ok rnd hpc, hw]
      exact accessRange_rangeLen_fault _ hi
    | draw x y n hpc hw hready hn hi =>
      rw [cycle_ok rnd hpc, hw]
      exact execDrw_fault.2 ⟨hready, hn, hi, rfl⟩

/-- A `CYCLE` is never refused: every word has a meaning (R97). -/
theorem cycle_not_refused (s : State) (rnd : Option Draw) (r : Refusal) : cycle rnd s ≠ .refused r := by
  by_cases hpc : s.pc.toNat < 0xFFF
  · rw [cycle_ok rnd hpc]
    exact exec_not_refused _ _ r
  · rw [cycle_fetch_fault rnd (Nat.le_of_not_lt hpc)]
    nofun

/-- Settles O55: with nothing scheduled the step is a `CYCLE`. -/
theorem cycleFaultsExactlyAsListed : Obligations.CycleFaultsExactlyAsListed := by
  intro s hs
  rw [step_cycle hs]
  exact ⟨fun f => cycle_fault_iff, cycle_not_refused s none⟩

/-! Words of the opcode map (R96). -/

/-- Settles O1: the fields of each literal word are computed. -/
theorem specWordsDecodeAsWritten : Obligations.SpecWordsDecodeAsWritten := by
  unfold Obligations.SpecWordsDecodeAsWritten
  decide

end Sys2Proof.Proofs

namespace Sys2Proof.Proofs

open Sys2Proof Sys2Proof.Machine Sys2Proof.Safety

/-! Control transfer (spec 40_flow.md R120 to R129). -/

/-- With nothing scheduled, a step on the word of a well-formed instruction is that instruction, after the fetch advance
(R90, R93). -/
theorem step_of_encode {s : State} {i : Instr} (hs : s.schedule = []) (hpc : s.pc.toNat < 0xFFF)
    (hi : i.wellFormed = true) (hword : s.readWord s.pc.toNat = encode i) : step s = exec i (s.advance none) := by
  rw [step_cycle hs, cycle_ok none hpc, hword, decode_encode hi]

/-- An address field is the same number as a `pc`. -/
theorem toNat_zext16_addr (nnn : Addr12) : (zext16 nnn).toNat = nnn.toNat :=
  BitVec.toNat_setWidth_of_le (by decide)

/-- A call, then a return from the state it answers: the return address is read back from the slot it was pushed to,
which keeps it. -/
theorem exec_call_then_ret (nnn : Addr12) (ign : Nibble) {s : State} (hsp : s.sp.val < 16) (rnd : Option Draw) :
    ∃ t, exec (.call nnn) s = .next t ∧ t.pc = zext16 nnn ∧ t.memory = s.memory ∧ t.schedule = s.schedule ∧
      exec (.ret ign) (t.advance rnd) =
        .next { s with stack := s.stack.set s.sp.val s.pc, rndInput := rnd, justReset := false } := by
  refine ⟨_, execCall_ok nnn hsp, rfl, rfl, rfl, (execRet_ok ign (Nat.succ_pos _)).trans ?_⟩
  simp only [State.advance, Nat.add_sub_cancel, Vector.getElem_set_self]

/-- Settles O22: the first step is the call at `pc`, the second the return at `nnn`. -/
theorem callThenReturnRoundTrips : Obligations.CallThenReturnRoundTrips := by
  intro s nnn ign hs hpc hnnn hsp hcall hret
  obtain ⟨t, ht, htpc, htmem, htsched, hu⟩ := exec_call_then_ret nnn ign (s := s.advance none) hsp none
  have htaddr : t.pc.toNat = nnn.toNat := (congrArg BitVec.toNat htpc).trans (toNat_zext16_addr nnn)
  have htword : t.readWord t.pc.toNat = encode (.ret ign) := by
    rw [htaddr, State.readWord_congr htmem]
    exact hret
  have hcalls : step s = .next t := (step_of_encode (i := .call nnn) hs hpc rfl hcall).trans ht
  have hreturns : step t = .next { s with
      pc := s.pc + 2, stack := s.stack.set s.sp.val (s.pc + 2), rndInput := none, justReset := false } :=
    (step_of_encode (htsched.trans hs) (htaddr ▸ hnnn) rfl htword).trans hu
  have hslots (i : Fin 16) (hi : i.val ≠ s.sp.val) : (s.stack.set s.sp.val (s.pc + 2))[i] = s.stack[i] :=
    Vector.getElem_set_ne hsp i.isLt (Ne.symm hi)
  exact ⟨t, _, hcalls, hreturns, htpc, rfl, rfl, hslots, rfl⟩

/-- A step at rest changes nothing but the model's own fields: the jump undoes the fetch advance (R120, R248). -/
theorem step_of_restsAt {s : State} {a : Addr12} (hs : s.schedule = []) (h : s.restsAt a) :
    step s = .next { s with rndInput := none, justReset := false } := by
  obtain ⟨hpc, ha, hword⟩ := h
  have haddr : s.pc.toNat = a.toNat := (congrArg BitVec.toNat hpc).trans (toNat_zext16_addr a)
  calc step s = .next ((s.advance none).jump (zext16 a)) :=
        step_of_encode (i := .jp a) hs (haddr ▸ ha) rfl (haddr ▸ hword)
    _ = .next { s with rndInput := none, justReset := false } := by rw [← hpc]; rfl

/-- Settles O23, by induction on the number of `CYCLE`s: the state after the first one rests at `a` too. -/
theorem selfJumpRests : Obligations.SelfJumpRests := by
  intro s a k hs h
  induction k generalizing s with
  | zero => exact ⟨s, rfl, rfl⟩
  | succ k ih =>
    rw [core_run_succ k (step_of_restsAt hs h)]
    exact ih { s with rndInput := none, justReset := false } hs h

/-- Settles O16: the word is that of the jump, whose meaning is the write of `pc`. -/
theorem jumpSetsPc : Obligations.JumpSetsPc :=
  fun nnn _ => ⟨decode_encode (i := .jp nnn) rfl, rfl⟩

/-- Settles O17: a full stack and one with room are the two cases of a call. -/
theorem callPushesThePostFetchPc : Obligations.CallPushesThePostFetchPc := by
  intro nnn s
  refine ⟨decode_encode (i := .call nnn) rfl, fun hsp => ?_, fun hsp => execCall_fault.2 ⟨hsp, rfl⟩⟩
  refine ⟨_, execCall_ok nnn hsp, rfl, rfl, fun i => ?_, rfl, State.readByte_congr rfl⟩
  exact (Vector.getElem_set hsp i.isLt).trans (if_congr eq_comm rfl rfl)

/-- Settles O18: an empty stack and one that holds a return address are the two cases of a return. -/
theorem returnPopsTheStack : Obligations.ReturnPopsTheStack := by
  intro ign s
  refine ⟨decode_encode (i := .ret ign) rfl, fun hsp => ?_, fun hsp => (execRet_fault (g := ign)).2 ⟨hsp, rfl⟩⟩
  have hslot : s.sp.val - 1 < 16 := by omega
  exact ⟨_, execRet_ok ign hsp, rfl, (Vector.getElem?_eq_getElem hslot).symm, rfl, State.readByte_congr rfl⟩

/-- Settles O19: the sum is below `2^16`, so that it is the sum of the numbers (D4). -/
theorem jumpOffsetAddsV0 : Obligations.JumpOffsetAddsV0 := by
  intro nnn s
  refine ⟨decode_encode (i := .jpV0 nnn) rfl, _, rfl, ?_, rfl, State.readByte_congr rfl⟩
  have hnnn := nnn.isLt
  have hv0 := (s.reg 0).isLt
  show (zext16 nnn + zext16 (s.reg 0)).toNat = _
  rw [BitVec.toNat_add, toNat_zext16_addr, BitVec.toNat_setWidth_of_le (by decide)]
  omega

/-- A skip on the truth value of a comparison adds 2 to `pc` exactly when the comparison holds (R129). -/
theorem next_skipIf {c : Bool} {p : Prop} [Decidable p] (s : State) (h : c = true ↔ p) :
    (.next (s.skipIf c) : Result) = .next { s with pc := if p then s.pc + 2 else s.pc } := by
  simp only [State.skipIf_eq, h]

/-- Settles O20: both are skips on the comparison with `kk`. -/
theorem immediateSkips : Obligations.ImmediateSkips :=
  fun x kk s => ⟨decode_encode (i := .seImm x kk) rfl, decode_encode (i := .sneImm x kk) rfl,
    next_skipIf s beq_iff_eq, next_skipIf s bne_iff_ne⟩

/-- Settles O21: both are skips on the comparison of the two registers. -/
theorem registerSkips : Obligations.RegisterSkips :=
  fun x y s => ⟨decode_encode (i := .seReg x y) rfl, decode_encode (i := .sneReg x y) rfl,
    next_skipIf s beq_iff_eq, next_skipIf s bne_iff_ne⟩

end Sys2Proof.Proofs

namespace Sys2Proof.Proofs

open Sys2Proof Sys2Proof.Machine Sys2Proof.Safety

/-! Register file and ALU (spec 41_alu.md R130 to R143). -/

/-- Writing `V[x]` changes nothing but that register. -/
theorem writesRegister_setReg (s : State) (x : Nibble) (b : Byte) : WritesRegister s (s.setReg x b) x b :=
  ⟨fun i => State.reg_setReg s x i b, (State.setReg_eta s x b).symm, State.readByte_congr rfl⟩

/-- Writing a result and then the flag, given as numbers: the flag is read back last (R143, D12). -/
theorem writesResultAndFlag_setRegFlag (s : State) (x : Nibble) {b f : Byte} {r n : Nat} (hb : b.toNat = r)
    (hf : f.toNat = n) : WritesResultAndFlag s (s.setRegFlag x b f) x r n := by
  refine ⟨?_, fun hx => ?_, fun i hi hiF => ?_, (State.setRegFlag_eta s x b f).symm, State.readByte_congr rfl⟩
  · rw [State.vf, State.reg_setRegFlag, if_pos rfl, hf]
  · rw [State.reg_setRegFlag, if_neg hx, if_pos rfl, hb]
  · rw [State.reg_setRegFlag, if_neg hiF, if_neg hi]

/-- Settles O24: both are the write of one register. -/
theorem loadsIntoARegister : Obligations.LoadsIntoARegister :=
  fun x y kk s => ⟨decode_encode (i := .ldImm x kk) rfl, decode_encode (i := .ldReg x y) rfl,
    ⟨_, rfl, writesRegister_setReg s x kk⟩, ⟨_, rfl, writesRegister_setReg s x (s.reg y)⟩⟩

/-- The sum of two bytes is that of their numbers modulo 256 (R142). -/
theorem byte_add_eq_ofNat (a b : Byte) : a + b = BitVec.ofNat 8 ((a.toNat + b.toNat) % 256) :=
  BitVec.eq_of_toNat_eq (by simp)

/-- Settles O25: the one register written is given the sum of the bytes. -/
theorem addImmediateSetsNoFlag : Obligations.AddImmediateSetsNoFlag := by
  intro x kk s
  refine ⟨decode_encode (i := .addImm x kk) rfl, _, rfl, ?_⟩
  rw [← byte_add_eq_ofNat]
  exact writesRegister_setReg s x (s.reg x + kk)

/-- Settles O26: each writes the bitwise result, then the flag 0. -/
theorem logicalOperationsClearVf : Obligations.LogicalOperationsClearVf :=
  fun x y s => ⟨decode_encode (i := .orReg x y) rfl, decode_encode (i := .andReg x y) rfl,
    decode_encode (i := .xorReg x y) rfl,
    ⟨_, rfl, writesResultAndFlag_setRegFlag s x (BitVec.toNat_or ..) rfl⟩,
    ⟨_, rfl, writesResultAndFlag_setRegFlag s x (BitVec.toNat_and ..) rfl⟩,
    ⟨_, rfl, writesResultAndFlag_setRegFlag s x (BitVec.toNat_xor ..) rfl⟩⟩

/-- Settles O27: the sum, then the carry. -/
theorem addSetsTheCarry : Obligations.AddSetsTheCarry :=
  fun x y s => ⟨decode_encode (i := .addReg x y) rfl, _, rfl,
    writesResultAndFlag_setRegFlag s x (BitVec.toNat_add ..) (carryFlag_toNat ..)⟩

/-- The difference of two bytes is that of their numbers modulo 256 (R142), the subtrahend taken off after 256 is added
to the minuend. -/
theorem toNat_byte_sub (a b : Byte) : (a - b).toNat = (a.toNat + 256 - b.toNat) % 256 := by
  have := b.isLt
  rw [BitVec.toNat_sub]
  omega

/-- Settles O28: the difference, then the flag of no borrow, with minuend and subtrahend exchanged between the two. -/
theorem subtractionsSetNoBorrow : Obligations.SubtractionsSetNoBorrow :=
  fun x y s => ⟨decode_encode (i := .subReg x y) rfl, decode_encode (i := .subnReg x y) rfl,
    ⟨_, rfl, writesResultAndFlag_setRegFlag s x (toNat_byte_sub ..) (noBorrowFlag_toNat ..)⟩,
    ⟨_, rfl, writesResultAndFlag_setRegFlag s x (toNat_byte_sub ..) (noBorrowFlag_toNat ..)⟩⟩

/-- The flag of a bit is that bit of the number. -/
theorem flag_getLsbD_toNat (b : Byte) (i : Nat) : (flag (b.getLsbD i)).toNat = b.toNat / 2 ^ i % 2 := by
  rw [← Nat.toNat_testBit, flag_toNat]
  exact (Bool.cond_eq_ite ..).symm

theorem bit0Flag_toNat (b : Byte) : (bit0Flag b).toNat = b.toNat % 2 := by
  rw [bit0Flag, flag_getLsbD_toNat, Nat.pow_zero, Nat.div_one]

/-- Bit 7 is the topmost, so that nothing is above it. -/
theorem bit7Flag_toNat (b : Byte) : (bit7Flag b).toNat = b.toNat / 128 := by
  have := b.isLt
  rw [bit7Flag, flag_getLsbD_toNat]
  omega

/-- A shift right by 1 halves. -/
theorem toNat_byte_shr_one (b : Byte) : (b >>> 1).toNat = b.toNat / 2 := by
  rw [BitVec.toNat_ushiftRight, Nat.shiftRight_eq_div_pow, Nat.pow_one]

/-- A shift left by 1 doubles modulo 256 (R142). -/
theorem toNat_byte_shl_one (b : Byte) : (b <<< 1).toNat = b.toNat * 2 % 256 := by
  rw [BitVec.toNat_shiftLeft, Nat.shiftLeft_eq, Nat.pow_one]

/-- Settles O29: `Vy` halved or doubled, then its lowest or topmost bit. -/
theorem shiftsTakeVy : Obligations.ShiftsTakeVy :=
  fun x y s => ⟨decode_encode (i := .shrReg x y) rfl, decode_encode (i := .shlReg x y) rfl,
    ⟨_, rfl, writesResultAndFlag_setRegFlag s x (toNat_byte_shr_one _) (bit0Flag_toNat _)⟩,
    ⟨_, rfl, writesResultAndFlag_setRegFlag s x (toNat_byte_shl_one _) (bit7Flag_toNat _)⟩⟩

/-- With the argument of the `CYCLE` supplied, `Cxkk` takes its byte and no free draw (R141, log 1). -/
theorem exec_rnd_supplied (x : Nibble) (kk : Byte) {s : State} {d : Draw} (h : s.rndInput = some d) :
    exec (.rnd x kk) s = .next (s.setReg x (BitVec.ofNat 8 d.val &&& kk)) := by
  have hdraw : s.consumeDraw = s := by rw [State.consumeDraw, if_pos (Option.isSome_of_eq_some h)]
  have hbyte : s.rndByte = BitVec.ofNat 8 d.val := by rw [State.rndByte, h]; rfl
  show Host.Outcome.next (s.consumeDraw.setReg x (s.rndByte &&& kk)) = _
  rw [hdraw, hbyte]

/-- With no argument supplied, `Cxkk` takes the free value of the next draw and counts it (R141, log 1). -/
theorem exec_rnd_free (x : Nibble) (kk : Byte) {s : State} (h : s.rndInput = none) :
    exec (.rnd x kk) s =
      .next ({ s with rndCount := s.rndCount + 1 }.setReg x
        (BitVec.ofNat 8 (Config.rndDraw s.rndCount).val &&& kk)) := by
  have hdraw : s.consumeDraw = { s with rndCount := s.rndCount + 1 } := by
    rw [State.consumeDraw, if_neg (Option.not_isSome_iff_eq_none.2 h)]
  have hbyte : s.rndByte = BitVec.ofNat 8 (Config.rndDraw s.rndCount).val := by rw [State.rndByte, h]; rfl
  show Host.Outcome.next (s.consumeDraw.setReg x (s.rndByte &&& kk)) = _
  rw [hdraw, hbyte]

/-- No instruction but `Cxkk` consumes a draw. -/
theorem exec_next_rndCount {i : Instr} {s t : State} (h : exec i s = .next t) (hi : ∀ x kk, i ≠ .rnd x kk) :
    t.rndCount = s.rndCount := by
  cases i with
  | rnd x kk => exact absurd rfl (hi x kk)
  | call nnn => obtain ⟨_, rfl⟩ := execCall_next h; rfl
  | ret g => obtain ⟨_, rfl⟩ := execRet_next (ign := g) h; rfl
  | seImm | sneImm | seReg | sneReg | skp | sknp => cases h; rw [State.skipIf_eq]
  | drw x y n => rcases execDrw_next h with ⟨_, rfl⟩ | ⟨_, _, rfl⟩ <;> rfl
  | ldVxK x => rcases execLdVxK_next h with ⟨_, rfl⟩ | ⟨k, _, ⟨_, rfl⟩ | ⟨_, rfl⟩⟩ <;> rfl
  | ldB | storeRegs | loadRegs => obtain ⟨_, rfl⟩ := accessRange_next.1 h; rfl
  | _ => cases h; rfl

/-- Settles O30: the draw is supplied or free, and its byte masked is what the one register is given. -/
theorem randomByteIsMasked : Obligations.RandomByteIsMasked := by
  refine ⟨fun x kk s => ⟨decode_encode (i := .rnd x kk) rfl, fun d hd => ?_, fun hnone => ?_⟩,
    fun i s t => exec_next_rndCount⟩
  · exact ⟨_, exec_rnd_supplied x kk hd, writesRegister_setReg s x _⟩
  · exact ⟨_, exec_rnd_free x kk hnone, writesRegister_setReg _ x _⟩

end Sys2Proof.Proofs

namespace Sys2Proof.Proofs

open Sys2Proof Sys2Proof.Machine Sys2Proof.Safety

/-! Index register and memory (spec 42_index_memory.md R150 to R156). -/

/-- The sum of a word and a byte is that of their numbers modulo `2^16` (R151). -/
theorem word_add_zext16_eq_ofNat (w : Word) (b : Byte) :
    w + zext16 b = BitVec.ofNat 16 ((w.toNat + b.toNat) % 65536) :=
  BitVec.eq_of_toNat_eq (by simp)

/-- Settles O31: the address field as it is, or the sum of `index` and the byte. -/
theorem indexIsLoadedAndAddedTo : Obligations.IndexIsLoadedAndAddedTo := by
  intro x nnn s
  refine ⟨decode_encode (i := .ldI nnn) rfl, decode_encode (i := .addI x) rfl, rfl, ?_⟩
  rw [← word_add_zext16_eq_ofNat]
  rfl

/-- The glyphs begin at address 0 and are five bytes each (R152). -/
theorem glyphAddr_eq_ofNat (b : Byte) : glyphAddr b = BitVec.ofNat 16 (5 * b.toNat) :=
  BitVec.eq_of_toNat_eq (by simp [glyphAddr])

/-- Settles O32: the instruction gives `index` the glyph address. -/
theorem glyphAddressIsFiveTimesVx : Obligations.GlyphAddressIsFiveTimesVx := by
  intro x s
  refine ⟨decode_encode (i := .ldF x) rfl, ?_⟩
  rw [← glyphAddr_eq_ofNat]
  rfl

/-- A byte stored is read back at its place. -/
theorem readByte_of_memory_eq_writeBytes {t : State} {m : List Host.Cell} {a j : Nat} {bs : List Byte}
    (ht : t.memory = Memory.writeBytes m a bs) (hj : j < bs.length) : t.readByte (a + j) = bs[j] := by
  rw [State.readByte, ht, Memory.read_writeBytes, dif_pos (by omega)]
  simp only [Nat.add_sub_cancel_left]

/-- A decimal digit is the same number as a byte. -/
theorem toNat_byte_ofNat_digit {n : Nat} (h : n < 10) : (BitVec.ofNat 8 n).toNat = n :=
  (BitVec.toNat_ofNat ..).trans (Nat.mod_eq_of_lt (by omega))

/-- A store of digits inside memory answers a next state, which differs in memory alone (R153). -/
theorem exec_ldB_next {x : Nibble} {s : State} (h : s.base + 2 ≤ 0xFFF) :
    ∃ t, exec (.ldB x) s = .next t ∧ t.memory = Memory.writeBytes s.memory s.base (bcdDigits (s.reg x)) ∧
      t = { s with memory := t.memory } :=
  ⟨_, accessRange_ok fun _ => h, rfl, rfl⟩

/-- Settles O33: each digit is read back where it was stored; the other bytes are outside the range of the store. -/
theorem bcdStoresThreeDigits : Obligations.BcdStoresThreeDigits := by
  intro x s
  refine ⟨decode_encode (i := .ldB x) rfl, fun hrange => ?_⟩
  obtain ⟨t, ht, hmem, hframe⟩ := exec_ldB_next (x := x) hrange
  have hV := (s.reg x).isLt
  have hdigit {j n : Nat} (hj : j < 3) (h : (bcdDigits (s.reg x))[j] = BitVec.ofNat 8 n) (hn : n < 10) :
      (t.readByte (s.base + j)).toNat = n := by
    rw [readByte_of_memory_eq_writeBytes hmem hj, h, toNat_byte_ofNat_digit hn]
  refine ⟨t, ht, hdigit (j := 0) (by decide) rfl (by omega), hdigit (by decide) rfl (by omega),
    hdigit (by decide) rfl (by omega), fun a ha => ?_, hframe⟩
  exact onlyStoresChangeMemory _ s t a ht (by simp only [storesTo]; omega)

/-- `index` moved past the range `V[0]..V[x]` (R154, R155). -/
theorem toNat_addIndex_range (s : State) (x : Nibble) :
    (s.addIndex (zext16 x + 1)).index.toNat = (s.index.toNat + x.toNat + 1) % 65536 := by
  have hx : (zext16 x).toNat = x.toNat := BitVec.toNat_setWidth_of_le (by decide)
  rw [State.addIndex_index, ← BitVec.add_assoc, BitVec.toNat_add, BitVec.toNat_add, hx, Nat.mod_add_mod]
  rfl

/-- Settles O34: the registers are read back where they were stored; the other bytes are outside the range of the
store. -/
theorem storeWritesTheRegisterRange : Obligations.StoreWritesTheRegisterRange := by
  intro x s
  refine ⟨decode_storeRegs_word x, fun hrange => ?_⟩
  obtain ⟨t, ht, -, hbytes⟩ := exec_storeRegs_next hrange
  have houtside (a : Nat) (ha : a < s.base ∨ s.base + x.toNat < a) : t.readByte a = s.readByte a :=
    onlyStoresChangeMemory _ s t a ht (by simp only [storesTo, rangeLen]; omega)
  obtain ⟨-, rfl⟩ := accessRange_next.1 ht
  exact ⟨_, ht, hbytes, houtside, toNat_addIndex_range _ x, rfl⟩

/-- Settles O35: a register of the range is given its byte, any other keeps its value. -/
theorem loadReadsTheRegisterRange : Obligations.LoadReadsTheRegisterRange := by
  intro x s
  refine ⟨decode_encode (i := .loadRegs x) rfl, fun hrange => ?_⟩
  refine ⟨_, accessRange_ok fun _ => hrange, fun i => ?_, toNat_addIndex_range _ x, rfl, State.readByte_congr rfl⟩
  exact (loadRange_get s.memory s.base s.v (rangeLen x) x.isLt i.isLt).trans (if_congr Nat.lt_succ_iff rfl rfl)

end Sys2Proof.Proofs

namespace Sys2Proof.Proofs

open Sys2Proof Sys2Proof.Machine Sys2Proof.Safety

/-! The display (spec 43_display.md R160 to R164). -/

/-- Settles O38: the display a clear answers is the one with every pixel off. -/
theorem clearTurnsEveryPixelOff : Obligations.ClearTurnsEveryPixelOff :=
  fun ign _ => ⟨decode_encode (i := .cls ign) rfl, _, rfl, Display.pixel_clear, rfl, State.readByte_congr rfl⟩

/-- Settles O39: the stall is the first test of the draw. -/
theorem drawStallsWhileTheFrameWaits : Obligations.DrawStallsWhileTheFrameWaits :=
  fun x y n _ => ⟨decode_encode (i := .drw x y n) rfl, execDrw_stalled x y n⟩

/-! A draw in terms of the sprite bits that cover a pixel (R161). -/

/-- The draw `Dxyn` on `s` puts a 1-bit of its sprite on row `r`, column `c` inside the display: the closed form of the
loops in the terms of the claims. -/
def DrawCovers (s : State) (x y n : Nibble) (r c : Nat) : Prop :=
  r < 32 ∧ c < 64 ∧ covers s ((s.reg x).toNat % 64) ((s.reg y).toNat % 32) n.toNat r c = true

/-- The laws of the draw's loops speak of the same pixels as the claims: the two conjunctions differ in order alone. -/
theorem rowsCover_iff_drawCovers (s : State) (x y n : Nibble) (r c : Nat) :
    rowsCover s.memory s.base (originCol (s.reg x)) (originRow (s.reg y)) 0 n.toNat r c ↔ DrawCovers s x y n r c := by
  rw [DrawCovers, covers, Bool.and_eq_true, decide_eq_true_eq, rowsCover, originCol, originRow, State.readByte]
  tauto

theorem drawSprite_pixel_of_drawCovers {s : State} {x y n : Nibble} {r c : Nat} (h : DrawCovers s x y n r c) :
    (s.drawSprite x y n).pixel r c = s.pixel r c ^^^ pixelOn := by
  rw [State.drawSprite_pixel, if_pos ((rowsCover_iff_drawCovers s x y n r c).2 h)]

theorem drawSprite_pixel_of_not_drawCovers {s : State} {x y n : Nibble} {r c : Nat} (h : ¬ DrawCovers s x y n r c) :
    (s.drawSprite x y n).pixel r c = s.pixel r c := by
  rw [State.drawSprite_pixel, if_neg (mt (rowsCover_iff_drawCovers s x y n r c).1 h)]

/-- `VF` after a draw: 1 iff the sprite covers a pixel that was on. -/
theorem drawSprite_vf_iff_drawCovers (s : State) (x y n : Nibble) :
    (s.drawSprite x y n).vf = 1 ↔ ∃ r c, DrawCovers s x y n r c ∧ s.pixel r c = pixelOn := by
  simp only [State.drawSprite_vf, rowsCover_iff_drawCovers, Display.on, beq_iff_eq, State.pixel]

/-- Settles O40: the draw inside memory is `drawSprite`, whose loops toggle and test the pixels covered. -/
theorem drawTogglesTheSpriteBits : Obligations.DrawTogglesTheSpriteBits := by
  intro x y n s hready hrange
  refine ⟨s.drawSprite x y n, (execDrw_running x y n hready).trans (accessRange_ok hrange), fun r c hr hc => ?_,
    State.drawSprite_vf_cases s x y n, ?_, fun i hi => State.drawSprite_reg s x y n hi, State.drawSprite_frame s x y n,
    State.readByte_congr rfl⟩
  · split
    · next h => exact drawSprite_pixel_of_drawCovers ⟨hr, hc, h⟩
    · next h => exact drawSprite_pixel_of_not_drawCovers fun hcov => h hcov.2.2
  · rw [drawSprite_vf_iff_drawCovers]
    simp only [DrawCovers, and_assoc, pixelOn]

/-! The same draw twice (R163). -/

/-- A draw that does not stall and answers a next state has drawn. -/
theorem eq_drawSprite_of_execDrw_next {x y n : Nibble} {s t : State} (hready : s.displayReady = false)
    (h : execDrw x y n s = .next t) : t = s.drawSprite x y n :=
  (accessRange_next.1 ((execDrw_running x y n hready).symm.trans h)).2

/-- What a draw covers depends on the sprite's bytes and its origin alone. -/
theorem drawCovers_congr {s t : State} {x y n : Nibble} (hm : t.memory = s.memory) (hi : t.index = s.index)
    (hx : (t.reg x).toNat % 64 = (s.reg x).toNat % 64) (hy : (t.reg y).toNat % 32 = (s.reg y).toNat % 32) (r c : Nat) :
    DrawCovers t x y n r c ↔ DrawCovers s x y n r c := by
  simp only [DrawCovers, covers, State.base, State.readByte_congr hm, hi, hx, hy]

/-- Pixels are read from the display alone. -/
theorem pixel_congr {s t : State} (h : t.display = s.display) (r c : Nat) : t.pixel r c = s.pixel r c := by
  simp only [State.pixel, h]

/-- A toggle makes a pixel on exactly if it was off. -/
theorem xor_pixelOn_eq_pixelOn {p : Pixel} : p ^^^ pixelOn = pixelOn ↔ p = 0 := by
  constructor
  · intro h
    exact (BitVec.xor_left_inj pixelOn).1 (h.trans BitVec.zero_xor.symm)
  · rintro rfl
    exact BitVec.zero_xor

/-- A second draw that covers what the first one did toggles each pixel back. -/
theorem drawSprite_twice_pixel {s t : State} {x y n : Nibble} (ht : t.display = (s.drawSprite x y n).display)
    (hcov : ∀ r c, DrawCovers t x y n r c ↔ DrawCovers s x y n r c) (r c : Nat) :
    (t.drawSprite x y n).pixel r c = s.pixel r c := by
  by_cases h : DrawCovers s x y n r c
  · rw [drawSprite_pixel_of_drawCovers ((hcov r c).2 h), pixel_congr ht, drawSprite_pixel_of_drawCovers h,
      BitVec.xor_assoc, BitVec.xor_self, BitVec.xor_zero]
  · rw [drawSprite_pixel_of_not_drawCovers (mt (hcov r c).1 h), pixel_congr ht, drawSprite_pixel_of_not_drawCovers h]

/-- A second draw that covers what the first one did finds a covered pixel on exactly if it was off before the first. -/
theorem drawSprite_twice_vf {s t : State} {x y n : Nibble} (ht : t.display = (s.drawSprite x y n).display)
    (hcov : ∀ r c, DrawCovers t x y n r c ↔ DrawCovers s x y n r c) :
    (t.drawSprite x y n).vf = 1 ↔ ∃ r c, DrawCovers s x y n r c ∧ s.pixel r c = 0 := by
  rw [drawSprite_vf_iff_drawCovers]
  refine exists_congr fun r => exists_congr fun c => ?_
  rw [hcov]
  refine and_congr_right fun h => ?_
  rw [pixel_congr ht, drawSprite_pixel_of_drawCovers h, xor_pixelOn_eq_pixelOn]

/-- Settles O41: with the origin as it was, the second draw covers the pixels that the first one did. -/
theorem drawingTwiceRestoresThePixels : Obligations.DrawingTwiceRestoresThePixels := by
  intro x y n s t u hready hs ht hx hy
  obtain rfl := eq_drawSprite_of_execDrw_next hready hs
  obtain rfl := eq_drawSprite_of_execDrw_next rfl ht
  have hcov := drawCovers_congr (s := s) (t := { s.drawSprite x y n with displayReady := false }) (n := n) rfl rfl hx hy
  refine ⟨drawSprite_twice_pixel rfl hcov, (drawSprite_twice_vf rfl hcov).trans ?_⟩
  simp only [DrawCovers, and_assoc]

/-! A frame that waits (R164, R252). -/

/-- What every event of a session keeps holds after it: a fault clears the model's own note of `RESET` and nothing else
(R203, log 8). -/
theorem session_keeps {P : State → Prop} {es : List Event} (hfault : ∀ s, P s → P { s with justReset := false })
    (hnext : ∀ e ∈ es, ∀ s t, P s → issue e s = .next t → P t) {s : State} (hs : P s) :
    P (session es s).1 := by
  induction es generalizing s with
  | nil => exact hs
  | cons e es ih =>
    refine ih (fun e' he' => hnext e' (List.mem_cons_of_mem e he')) ?_
    cases hres : issue e s with
    | next t => exact hnext e List.mem_cons_self s t hs hres
    | fault f => exact hfault s hs
    | refused r => exact hs

/-- The latch is set, and the display is `d` or has been cleared. -/
structure FrameWaits (d : Display) (s : State) : Prop where
  /-- `displayReady` is set. -/
  ready : s.displayReady = true
  /-- No draw has been made. -/
  display : s.display = d ∨ s.display = Display.clear

/-- While a frame waits, a draw stalls, and the clear leaves the latch (D14). -/
theorem exec_keeps_frameWaits {d : Display} {i : Instr} {s t : State} (hs : FrameWaits d s) (h : exec i s = .next t) :
    FrameWaits d t := by
  cases i with
  | cls g => cases h; exact ⟨hs.ready, Or.inr rfl⟩
  | drw x y n => cases (execDrw_stalled x y n hs.ready).symm.trans h; exact ⟨hs.ready, hs.display⟩
  | _ =>
    have hf := exec_next_frame h
    exact ⟨(hf.displayReady nofun).trans hs.ready, hf.display nofun nofun ▸ hs.display⟩

theorem issue_keeps_frameWaits {d : Display} {e : Event} (he : e ≠ .consumeFrame ∧ e ≠ .reset) {s t : State}
    (hs : FrameWaits d s) (h : issue e s = .next t) : FrameWaits d t := by
  cases e with
  | reset => exact absurd rfl he.2
  | consumeFrame => exact absurd rfl he.1
  | load bytes => obtain ⟨-, -, rfl⟩ := loadProgram_next.1 h; exact ⟨hs.ready, hs.display⟩
  | cycle rnd => exact exec_keeps_frameWaits (s := s.advance (some rnd)) ⟨hs.ready, hs.display⟩ (cycle_next h).2
  | tick | setKeys => cases h; exact ⟨hs.ready, hs.display⟩

/-- Settles O42: every event of the session keeps the frame waiting. -/
theorem onlyConsumeFrameLetsADrawPass : Obligations.OnlyConsumeFrameLetsADrawPass := by
  intro es s hready hes
  have hwaits : FrameWaits s.display (session es s).1 :=
    session_keeps (fun _ h => ⟨h.ready, h.display⟩) (fun e he _ _ => issue_keeps_frameWaits (hes e he))
      ⟨hready, Or.inl rfl⟩
  refine ⟨hwaits.ready, hwaits.display.imp_right fun hclear r c => ?_⟩
  rw [State.pixel, hclear, Display.pixel_clear]

end Sys2Proof.Proofs

namespace Sys2Proof.Proofs

open Sys2Proof Sys2Proof.Machine Sys2Proof.Safety

/-! Keypad and timers (spec 44_keypad_timers.md R170 to R176). -/

/-- The mask has 16 bits, so that a key number above 15 is not held (R176, D11). -/
theorem held_iff {s : State} {k : Nat} : s.held k = true ↔ k ≤ 15 ∧ s.keypadMask.getLsbD k = true := by
  refine ⟨fun h => ⟨?_, h⟩, And.right⟩
  exact Nat.le_of_lt_succ (BitVec.lt_of_getLsbD h)

/-- Settles O43: both are skips on whether the key that `Vx` names is held. -/
theorem keySkipsTestTheMask : Obligations.KeySkipsTestTheMask := by
  intro x s
  refine ⟨decode_encode (i := .skp x) rfl, decode_encode (i := .sknp x) rfl, next_skipIf s held_iff, ?_⟩
  rw [← ite_not]
  refine next_skipIf s ?_
  rw [Bool.not_eq_true', ← held_iff, Bool.not_eq_true]

/-- A mask with some bit set has a least key held (R172). -/
theorem exists_leastHeld_of_keypadMask_ne_zero {s : State} (h : s.keypadMask ≠ 0) : ∃ k, s.leastHeld = some k :=
  Option.ne_none_iff_exists'.1 (mt leastHeld_eq_none_iff.1 h)

/-- The host's events but `CYCLE` and `RESET` leave the awaited key (D23). -/
theorem issue_next_keyAwaited {e : Event} {s t : State} (h : issue e s = .next t) (hcycle : ∀ d, e ≠ .cycle d)
    (hreset : e ≠ .reset) : t.keyAwaited = s.keyAwaited := by
  cases e with
  | reset => exact absurd rfl hreset
  | cycle d => exact absurd rfl (hcycle d)
  | load bytes => obtain ⟨-, -, rfl⟩ := loadProgram_next.1 h; rfl
  | tick | setKeys | consumeFrame => cases h; rfl

/-- Settles O44: the three cases of the key wait, the frame of the other instructions, and the host's events. -/
theorem keyWaitTakesAPressAndARelease : Obligations.KeyWaitTakesAPressAndARelease := by
  refine ⟨fun x s => ⟨decode_encode (i := .ldVxK x) rfl, fun hnone => ?_, fun k hk => ⟨?_, fun hreleased => ?_⟩⟩,
    fun i s t h => (exec_next_frame h).keyAwaited, fun e s t => issue_next_keyAwaited⟩
  · refine ⟨_, execLdVxK_phase1 x hnone, leastHeld_eq_none_iff.2, fun hmask => ?_, rfl, State.readByte_congr rfl⟩
    obtain ⟨k, hk⟩ := exists_leastHeld_of_keypadMask_ne_zero hmask
    exact ⟨k, hk, State.leastHeld_eq_some.1 hk⟩
  · exact execLdVxK_held x hk
  · exact ⟨_, execLdVxK_released x hk hreleased, writesRegister_setReg _ x (zext8 k)⟩

/-- Settles O45: the read writes one register, each set writes its timer, and the tone is on while the sound timer is
not 0. -/
theorem timersAreReadAndSet : Obligations.TimersAreReadAndSet := by
  intro x s
  have htone := timersChangeOnlyByTheirInstructions.2 { s with soundTimer := s.reg x }
  exact ⟨decode_encode (i := .ldVxDt x) rfl, decode_encode (i := .ldDtVx x) rfl, decode_encode (i := .ldStVx x) rfl,
    ⟨_, rfl, writesRegister_setReg s x s.delayTimer⟩, rfl, _, rfl, rfl, htone⟩

end Sys2Proof.Proofs

namespace Sys2Proof.Proofs

open Sys2Proof Sys2Proof.Machine Sys2Proof.Safety

/-! The no-op space (spec 45_noop.md R180 to R186). -/

/-- A no-op instruction, of whichever row, answers the state it is given (R180). -/
theorem exec_of_isNop {i : Instr} (h : i.isNop = true) (s : State) : exec i s = .next s := by
  cases i with
  | nop0 | nop5 | nop8 | nop9 | nopE | nopF => rfl
  | _ => cases h

/-- Settles O48: a word that selects no defined row decodes to a no-op, so that the fetch advance is all that happens. -/
theorem unmatchedWordsOnlyAdvancePc : Obligations.UnmatchedWordsOnlyAdvancePc := by
  intro s hs hpc hnone
  have hnop : (decode (s.readWord s.pc.toNat)).isNop = true := (decodeFollowsTheOpcodeMap.2 _).2.2 hnone
  calc step s = exec (decode (s.readWord s.pc.toNat)) (s.advance none) := by rw [step_cycle hs, cycle_ok none hpc]
    _ = .next (s.advance none) := exec_of_isNop hnop _

/-- A no-op row whose discriminant is none of those defined in its class passes the check of R97. -/
theorem not_contains_of_notMem {n : Nat} {ds : List (BitVec n)} {d : BitVec n} (h : d ∉ ds) :
    (!ds.contains d) = true := by
  simpa using h

/-- The values of `n` that R183 lists are none of those defined in class 8. -/
theorem notMem_definedN8 {n : Nibble} (h : n ∈ [0x8, 0x9, 0xA, 0xB, 0xC, 0xD, 0xF]) : n ∉ definedN8 :=
  (show ∀ m ∈ [(0x8 : Nibble), 0x9, 0xA, 0xB, 0xC, 0xD, 0xF], m ∉ definedN8 by decide) n h

/-- Settles O49: outside its class's defined discriminants a no-op row is well formed, so that its word decodes to it. -/
theorem noopRowsCompleteUnchanged : Obligations.NoopRowsCompleteUnchanged := by
  intro bits s
  refine ⟨fun hcls hret => ?nop0, fun hn => ?nop5, fun hn => ?nop8, fun hn => ?nop9, fun hskp hsknp => ?nopE,
    fun hk => ?nopF, exec_of_isNop rfl s, exec_of_isNop rfl s, exec_of_isNop rfl s, exec_of_isNop rfl s,
    exec_of_isNop rfl s, exec_of_isNop rfl s⟩
  case nop0 =>
    have hk : lowKk bits ∉ definedKk0 := mt List.mem_pair.1 (not_or.2 ⟨hcls, hret⟩)
    exact decode_encode (i := .nop0 bits) (not_contains_of_notMem hk)
  case nop5 => exact decode_encode (i := .nop5 bits) (not_contains_of_notMem (mt List.mem_singleton.1 hn))
  case nop8 => exact decode_encode (i := .nop8 bits) (not_contains_of_notMem (notMem_definedN8 hn))
  case nop9 => exact decode_encode (i := .nop9 bits) (not_contains_of_notMem (mt List.mem_singleton.1 hn))
  case nopE =>
    have hk : lowKk bits ∉ definedKkE := mt List.mem_pair.1 (not_or.2 ⟨hskp, hsknp⟩)
    exact decode_encode (i := .nopE bits) (not_contains_of_notMem hk)
  case nopF => exact decode_encode (i := .nopF bits) (not_contains_of_notMem hk)

end Sys2Proof.Proofs

namespace Sys2Proof.Proofs

open Sys2Proof Sys2Proof.Machine Sys2Proof.Safety

/-! A fault lasts (spec 60_exceptions.md R203, R204). -/

/-- The timers, the mask and the model's own note of `RESET` decide no fault. A draw faults only while the latch is clear
(R161, D13), so that clearing the latch lifts no fault. -/
theorem cycleFaults_of_host {s : State} {f : Fault} (dt st : Byte) (mask : Word) {ready : Bool}
    (hready : s.displayReady = false → ready = false) (hf : CycleFaults s f) :
    CycleFaults
      { s with delayTimer := dt, soundTimer := st, keypadMask := mask, displayReady := ready, justReset := false } f := by
  cases hf with
  | fetch h => exact .fetch h
  | call nnn h hw hs => exact .call nnn h hw hs
  | ret ign h hw hs => exact .ret ign h hw hs
  | bcd x h hw hi => exact .bcd x h hw hi
  | store x h hw hi => exact .store x h hw hi
  | load x h hw hi => exact .load x h hw hi
  | draw x y n h hw hr hn hi => exact .draw x y n h hw (hready hr) hn hi

/-- A `CYCLE` that faults is reported, and clears the model's own note of `RESET` and nothing else (R203, log 8). -/
theorem settle_cycle_of_cycleFaults {s : State} {f : Fault} (hf : CycleFaults s f) (d : Draw) :
    settle s (issue (.cycle d) s) = ({ s with justReset := false }, [.fault f]) :=
  congrArg (settle s) (cycle_fault_iff.2 hf)

/-- While a `CYCLE` would fault, each `CYCLE` reports that fault and no other running event reports anything. -/
theorem running_reports {s : State} {f : Fault} {e : Event} (he : running e = true) (hf : CycleFaults s f) :
    (settle s (issue e s)).2 = ([e].filter isCycle).map (fun _ => .fault f) := by
  cases e with
  | reset | load => cases he
  | cycle d => exact congrArg Prod.snd (settle_cycle_of_cycleFaults hf d)
  | tick | setKeys | consumeFrame => rfl

/-- No running event lifts the fault: it only writes elements that `cycleFaults_of_host` speaks of. -/
theorem running_keeps_cycleFaults {s : State} {f : Fault} {e : Event} (he : running e = true) (hf : CycleFaults s f) :
    CycleFaults (settle s (issue e s)).1 f := by
  cases e with
  | reset | load => cases he
  | cycle d =>
    rw [settle_cycle_of_cycleFaults hf d]
    exact cycleFaults_of_host s.delayTimer s.soundTimer s.keypadMask id hf
  | tick => exact cycleFaults_of_host _ _ s.keypadMask id hf
  | setKeys mask => exact cycleFaults_of_host s.delayTimer s.soundTimer mask id hf
  | consumeFrame => exact cycleFaults_of_host s.delayTimer s.soundTimer s.keypadMask (fun _ => rfl) hf

/-- The record of a session of running events, from a state in which a `CYCLE` faults. -/
theorem session_reports_of_cycleFaults {s : State} {f : Fault} {es : List Event} (hes : ∀ e ∈ es, running e = true)
    (hf : CycleFaults s f) : (session es s).2 = (es.filter isCycle).map (fun _ => .fault f) := by
  induction es generalizing s with
  | nil => rfl
  | cons e es ih =>
    obtain ⟨he, hes⟩ := List.forall_mem_cons.1 hes
    calc (session (e :: es) s).2
      _ = (settle s (issue e s)).2 ++ (session es (settle s (issue e s)).1).2 := rfl
      _ = ([e].filter isCycle).map (fun _ => .fault f) ++ (es.filter isCycle).map (fun _ => .fault f) := by
        rw [running_reports he hf, ih hes (running_keeps_cycleFaults he hf)]
      _ = ((e :: es).filter isCycle).map (fun _ => .fault f) := by
        rw [← List.map_append, ← List.filter_append, List.singleton_append]

/-- Settles O56: that a `CYCLE` faults rests on no element that the session's events change, but for the latch, which
they only clear. -/
theorem aFaultLastsUntilReset : Obligations.AFaultLastsUntilReset :=
  fun _ _ _ _ hfault hes => session_reports_of_cycleFaults hes (cycle_fault_iff.1 hfault)

/-! The host's events (spec 60_exceptions.md R212, R213, R215, 70_reset_and_hazards.md R246). -/

/-- A program of 3584 bytes or more is rejected before any copy (C1). -/
theorem loadProgram_rejected {bytes : List Byte} {s : State} (hj : s.justReset = true)
    (hl : Config.progLimit ≤ bytes.length) : loadProgram bytes s = .fault (.loadRejected bytes.length) := by
  rw [loadProgram, if_pos hj, if_pos hl, raise]

/-- Not directly after `RESET`, a program of any length is refused (D16). -/
theorem loadProgram_refused (bytes : List Byte) {s : State} (hj : s.justReset = false) :
    loadProgram bytes s = .refused .loadNotDirectlyAfterReset := by
  rw [loadProgram, if_neg (Bool.eq_false_iff.1 hj)]

/-- Settles O11: the step is the scheduled `LOAD`, and the two clauses are its two checks. -/
theorem loadIsRejectedOrRefused : Obligations.LoadIsRejectedOrRefused := by
  intro s bytes es hs
  rw [step_event hs]
  exact ⟨fun hj hl => loadProgram_rejected hj hl, fun hj => loadProgram_refused bytes hj⟩

/-- Settles O12: each timer is counted down by `countDown`, which stops at 0. -/
theorem tickCountsBothTimersDown : Obligations.TickCountsBothTimersDown :=
  fun s _ hs => ⟨_, step_event hs, countDown_toNat s.delayTimer, countDown_toNat s.soundTimer, rfl⟩

/-- Settles O13: the scheduled event answers the state with the mask replaced. -/
theorem setKeysReplacesTheMask : Obligations.SetKeysReplacesTheMask :=
  fun _ _ _ hs => step_event hs

/-- Settles O14: the scheduled event answers the state with the latch clear. -/
theorem consumeFrameClearsTheLatch : Obligations.ConsumeFrameClearsTheLatch :=
  fun _ _ hs => step_event hs

end Sys2Proof.Proofs

namespace Sys2Proof.Proofs

open Sys2Proof Sys2Proof.Machine Sys2Proof.Safety

/-! Reset and the load of a program (spec 70_reset_and_hazards.md R240, R241, R246). -/

/-- What memory holds after several bytes are written upwards, byte by byte of the list written (R246). -/
theorem read_writeBytes_eq_getD (m : List Host.Cell) (a b : Nat) (bs : List Byte) :
    Memory.read (Memory.writeBytes m a bs) b =
      if a ≤ b ∧ b < a + bs.length then bs.getD (b - a) 0 else Memory.read m b := by
  rw [Memory.read_writeBytes]
  split
  · next hin => exact (List.getD_eq_getElem bs 0 (by omega)).symm
  · rfl

/-- Settles O10: the step is the scheduled `LOAD` in its accepted case, whose memory is the old one with the program
written from `0x200` on. -/
theorem loadCopiesTheProgram : Obligations.LoadCopiesTheProgram := by
  intro s bytes es hs hj hl
  exact ⟨_, (step_event hs).trans (loadProgram_next.2 ⟨hj, hl, rfl⟩),
    fun a => read_writeBytes_eq_getD s.memory Config.progBase a bytes, rfl⟩

/-- Settles O7: the word at `0x200` is `0x0000` at reset, of no class that stalls, and a fetch at `0x200` lies in memory
whatever memory holds. -/
theorem resetEntersAtTheProgramBase : Obligations.ResetEntersAtTheProgramBase := by
  have hpc : State.reset.pc.toNat < 0xFFF := by decide
  exact ⟨rfl, rfl, rfl, by decide, fun m => fetch_ok (s := { State.reset with memory := m }) hpc⟩

/-- Settles O9: the scheduled event answers the reset state with the two elements that are not the machine's. -/
theorem resetEventRestoresEverything : Obligations.ResetEventRestoresEverything :=
  fun _ _ hs => step_event hs

end Sys2Proof.Proofs
